-- ==== Sys2Proof/Word.lean ====
section
/-! DEFINITION. The one word type of the machine: a byte. -/

namespace Sys2Proof

/-- A memory cell, a general register, an operand byte: 8 bits, bit 7 most significant, always read as
unsigned (R5). "A word is a byte in this machine" (glossary of `00_scope.md`). -/
abbrev Byte := BitVec 8

end Sys2Proof
end

