-- ==== Sys2Proof/Config.lean ====
section
/-! DEFINITION. The implementation parameters of `00_scope.md` R4, each at the value the spec fixes.
No parameter is left open and the machine has no free value (`93_implementation_defined.md`, part 1). -/

namespace Sys2Proof

/-- `MEM_SIZE`: the number of memory cells, addresses 0..255 (R4, R30). -/
abbrev Config.memSize : Nat := 256

/-- `NREGS`: the number of general registers (R4, R11). -/
abbrev Config.nregs : Nat := 8

/-- `PC_RESET` (R4, R14). -/
abbrev Config.pcReset : Nat := 0

/-- `SP_RESET` (R4, R17). -/
abbrev Config.spReset : Nat := 0xF4

/-- `FL_RESET` (R4, R28; the spec's decision D6). -/
abbrev Config.flReset : Byte := 0x00

/-- `GPR_RESET` (R4, R28; the spec's decision D7). -/
abbrev Config.gprReset : Byte := 0x00

/-- `MEM_RESET`: what a cell nothing has written reads as (R4, R44). -/
abbrev Config.memReset : Byte := 0x00

/-- The number of a general register, 0..7 (R11). -/
abbrev RegIndex := Fin Config.nregs

end Sys2Proof
end

