-- ==== Sys2Proof/Syntax.lean ====
section
/-! DEFINITION. The instructions as syntax, one constructor per row of `spec/opcode_table.json`, with the
names the decoder and the ALU use. -/

namespace Sys2Proof

/-- Which operand byte: `a` is byte 1 (at `pc + 1`), `b` is byte 2 (at `pc + 2`) (R50, R111). -/
inductive OperandSlot
  | a
  | b
deriving DecidableEq, Repr

/-- The instructions of R54. A register operand is held as its whole operand byte, "whose value is the
register index" (R52); `WellFormed` says which bytes are legal. DOUBLE keeps its ignored third byte
(R51, format F2RX), so that the syntax loses no bit of an encoding (log 17). -/
inductive Instr
  /-- HLT (R75). -/
  | hlt
  /-- RET (R105). -/
  | ret
  /-- PUSH reg (R96). -/
  | push (reg : Byte)
  /-- POP reg (R97). -/
  | pop (reg : Byte)
  /-- PRN reg (R91). -/
  | prn (reg : Byte)
  /-- CALL reg (R104). -/
  | call (reg : Byte)
  /-- JMP reg (R101). -/
  | jmp (reg : Byte)
  /-- JEQ reg (R102). -/
  | jeq (reg : Byte)
  /-- JNE reg (R103). -/
  | jne (reg : Byte)
  /-- LDI reg, imm (R90). -/
  | ldi (reg imm : Byte)
  /-- DOUBLE reg, with the ignored byte 2 (R87). -/
  | double (reg pad : Byte)
  /-- MUL regA, regB (R86). -/
  | mul (regA regB : Byte)
  /-- CMP regA, regB (R85). -/
  | cmp (regA regB : Byte)
deriving DecidableEq, Repr

/-- The ALU's symbolic operation codes (R80, R83). The ALU recognises `add` and `cmp`; the other eight are
the names the source gives for possible extensions, none implemented. DESIGN CHOICE: the source has no
closed list of codes (log 9; safe, since the core only ever issues `cmp`). -/
inductive AluOp
  | add
  | cmp
  | sub
  | and
  | or
  | xor
  | not
  | shl
  | shr
  | mod
deriving DecidableEq, Repr

end Sys2Proof
end

