-- ==== Sys2Proof/WellFormed.lean ====
section
/-! DEFINITION. Which instruction terms are legal: every register operand byte is 0..7 (R52). -/

namespace Sys2Proof

/-- The operand bytes that the instruction's format marks as register fields (R51, R52), in the order the
decoder checks them (R72): byte 1 of F1, F2RI, F2RX and F2RR, byte 2 of F2RR only. LDI's immediate and
DOUBLE's third byte are no register fields. -/
def Instr.registerOperands : Instr → List (OperandSlot × Byte)
  | .hlt => []
  | .ret => []
  | .push r => [(.a, r)]
  | .pop r => [(.a, r)]
  | .prn r => [(.a, r)]
  | .call r => [(.a, r)]
  | .jmp r => [(.a, r)]
  | .jeq r => [(.a, r)]
  | .jne r => [(.a, r)]
  | .ldi r _ => [(.a, r)]
  | .double r _ => [(.a, r)]
  | .mul a b => [(.a, a), (.b, b)]
  | .cmp a b => [(.a, a), (.b, b)]

/-- "the legal values of a register byte are 0..7" (R52), in every register position. -/
abbrev Instr.WellFormed (i : Instr) : Prop :=
  ∀ o ∈ i.registerOperands, o.2.toNat < Config.nregs

end Sys2Proof
end

