-- ==== Sys2Proof/Decode.lean ====
section
/-! DEFINITION. The decoder (R50 to R59, R72), total on any three fetched bytes and rejecting by name, and the
encoder, written from the same opcode table. -/

namespace Sys2Proof

/-- The three bytes of a fetch: `ir`, `opa`, `opb` from `pc`, `pc + 1`, `pc + 2` (R71). -/
structure Fetched where
  ir : Byte
  opa : Byte
  opb : Byte
deriving DecidableEq, Repr

/-- Why a decode rejects (R72). -/
inductive DecodeError
  /-- The opcode byte is none of the 13 values of R54 (R57, R114). -/
  | unknownOpcode (ir : Byte)
  /-- A register-field operand byte is above 7 (R52, R115). -/
  | invalidRegister (slot : OperandSlot) (value : Byte)
deriving DecidableEq, Repr

/-- The formats of R51. -/
inductive Format
  | f0
  | f1
  | f2ri
  | f2rr
  | f2rx
deriving DecidableEq, Repr

/-- The rows of the opcode map, by mnemonic (R54). -/
inductive Opcode
  | hlt
  | ret
  | push
  | pop
  | prn
  | call
  | jmp
  | jeq
  | jne
  | ldi
  | double
  | mul
  | cmp
deriving DecidableEq, Repr

/-- All rows, in the order of R54. -/
def Opcode.all : List Opcode :=
  [.hlt, .ret, .push, .pop, .prn, .call, .jmp, .jeq, .jne, .ldi, .double, .mul, .cmp]

/-- The opcode map of R54: each mnemonic's opcode byte. -/
def Opcode.byte : Opcode → Byte
  | .hlt => 0b00000001
  | .ret => 0b00010001
  | .push => 0b01000101
  | .pop => 0b01000110
  | .prn => 0b01000111
  | .call => 0b01010000
  | .jmp => 0b01010100
  | .jeq => 0b01010101
  | .jne => 0b01010110
  | .ldi => 0b10000010
  | .double => 0b10100000
  | .mul => 0b10100010
  | .cmp => 0b10100111

/-- The format column of R54. -/
def Opcode.format : Opcode → Format
  | .hlt | .ret => .f0
  | .push | .pop | .prn | .call | .jmp | .jeq | .jne => .f1
  | .ldi => .f2ri
  | .double => .f2rx
  | .mul | .cmp => .f2rr

/-- The length in bytes of each format (R50, R51). -/
def Format.length : Format → Nat
  | .f0 => 1
  | .f1 => 2
  | .f2ri | .f2rr | .f2rx => 3

/-- "Decoding is an exact match of all eight bits of `ir` against the 13 values" (R56). -/
def Opcode.ofByte? (b : Byte) : Option Opcode :=
  Opcode.all.find? (fun o => o.byte == b)

/-- A byte in a register position: itself when it is 0..7, else rejected, never masked (R52). -/
def registerField (slot : OperandSlot) (b : Byte) : Except DecodeError Byte :=
  if b.toNat < Config.nregs then .ok b else .error (.invalidRegister slot b)

/-- An instruction with one register field, byte 1. -/
def decodeReg (f : Fetched) (mk : Byte → Instr) : Except DecodeError Instr := do
  let a ← registerField .a f.opa
  return mk a

/-- An instruction with two register fields; "byte 1 is checked before byte 2" (R72). -/
def decodeRegReg (f : Fetched) (mk : Byte → Byte → Instr) : Except DecodeError Instr := do
  let a ← registerField .a f.opa
  let b ← registerField .b f.opb
  return mk a b

/-- The operand bytes of a matched row, by its format (R51, R58). -/
def decodeOperands (f : Fetched) : Opcode → Except DecodeError Instr
  | .hlt => .ok .hlt
  | .ret => .ok .ret
  | .push => decodeReg f .push
  | .pop => decodeReg f .pop
  | .prn => decodeReg f .prn
  | .call => decodeReg f .call
  | .jmp => decodeReg f .jmp
  | .jeq => decodeReg f .jeq
  | .jne => decodeReg f .jne
  | .ldi => decodeReg f (.ldi · f.opb)
  | .double => decodeReg f (.double · f.opb)
  | .mul => decodeRegReg f .mul
  | .cmp => decodeRegReg f .cmp

/-- The decode step (R72): match the opcode byte, then check the register fields. -/
def decode (f : Fetched) : Except DecodeError Instr :=
  match Opcode.ofByte? f.ir with
  | none => .error (.unknownOpcode f.ir)
  | some op => decodeOperands f op

/-- The row of the opcode map an instruction belongs to. -/
def Instr.opcode : Instr → Opcode
  | .hlt => .hlt
  | .ret => .ret
  | .push _ => .push
  | .pop _ => .pop
  | .prn _ => .prn
  | .call _ => .call
  | .jmp _ => .jmp
  | .jeq _ => .jeq
  | .jne _ => .jne
  | .ldi _ _ => .ldi
  | .double _ _ => .double
  | .mul _ _ => .mul
  | .cmp _ _ => .cmp

/-- The bytes that follow the opcode byte, at increasing addresses (R33, R51). -/
def Instr.operandBytes : Instr → List Byte
  | .hlt => []
  | .ret => []
  | .push r => [r]
  | .pop r => [r]
  | .prn r => [r]
  | .call r => [r]
  | .jmp r => [r]
  | .jeq r => [r]
  | .jne r => [r]
  | .ldi r imm => [r, imm]
  | .double r pad => [r, pad]
  | .mul a b => [a, b]
  | .cmp a b => [a, b]

/-- The bytes of an instruction, opcode first (R51). -/
def encode (i : Instr) : List Byte := i.opcode.byte :: i.operandBytes

/-- The length of an instruction in bytes, "decided by its opcode alone" (R50, R59). -/
def Instr.length (i : Instr) : Nat := i.opcode.format.length

/-- The first three bytes of a byte sequence, as a fetch at its start reads them (R71). -/
def Fetched.front : List Byte → Option Fetched
  | ir :: opa :: opb :: _ => some ⟨ir, opa, opb⟩
  | _ => none

/-- The operand byte that names register `r`: `00000rrr` (R51, R52). -/
def regByte (r : RegIndex) : Byte := BitVec.ofNat 8 r.val

/-- The bytes of a table word: bits 7..0 are byte 0, bits 15..8 byte 1, bits 23..16 byte 2, and every bit
from `nbits` up is 0. -/
def tableBytes (nbits w : Nat) : Fetched :=
  let v := w % 2 ^ nbits
  ⟨BitVec.ofNat 8 v, BitVec.ofNat 8 (v / 2 ^ 8), BitVec.ofNat 8 (v / 2 ^ 16)⟩

/-- What the decoder reads from a word numbered as `spec/opcode_table.json` numbers its bits. -/
def decodeTableWord (nbits w : Nat) : Option Instr := (decode (tableBytes nbits w)).toOption

end Sys2Proof
end

