-- ==== Sys2Proof/Machine/State.lean ====
section
/-! DEFINITION. The whole architectural state of the core (R10) as plain data, and its value at reset (R28). -/

namespace Sys2Proof.Machine

/-- The exceptions of R111, each with the `info` it records. -/
inductive Exception
  /-- Code 1 (R112): the address the failing access would have used, as an integer (R25). -/
  | outOfBounds (addr : Int)
  /-- Code 2 (R113): the ALU operation code it does not recognise. No program causes it. -/
  | unsupportedOperation (op : AluOp)
  /-- Code 3 (R114): the opcode byte. -/
  | unknownOpcode (ir : Byte)
  /-- Code 4 (R115): which operand byte, and its value. -/
  | invalidRegister (slot : OperandSlot) (value : Byte)
deriving DecidableEq, Repr

/-- The fault record (R25): the exception with its info, `pc` at the start of the faulting cycle, and the
fetched bytes, "each present only if its fetch read succeeded". -/
structure FaultRecord where
  cause : Exception
  pc : Nat
  ir : Option Byte
  opa : Option Byte
  opb : Option Byte
deriving DecidableEq, Repr

/-- The dispatch loop's state `run` (R22). The fault record, valid only when `run = Faulted`, is held in
that constructor, as R10 allows (log 10). -/
inductive Run
  | loading
  | running
  | halted
  | faulted (record : FaultRecord)
deriving DecidableEq, Repr

/-- The 256 byte cells (R23, R30) as the list of the cells that do not hold `Config.memReset`, by strictly
rising address. An unlisted cell reads `Config.memReset` (R44; log 11). -/
abbrev Memory := List Host.Cell

/-- The canonical form of a memory: addresses strictly rising, all of them cells of the machine (R30), and
no entry equal to what an unlisted cell reads. -/
abbrev Memory.wf (m : Memory) : Prop :=
  m.Pairwise (fun c d => c.1 < d.1) ∧ ∀ c ∈ m, c.1 < Config.memSize ∧ c.2 ≠ Config.memReset

/-- The complete architectural state (R10). `pc` and `sp` are unsigned integers that never wrap; their
range 0..256 (R16, R18) is an invariant every step keeps, not a bound of the type (log 4). -/
structure State where
  regs : Vector Byte Config.nregs
  pc : Nat
  sp : Nat
  fl : Byte
  mem : Memory
  run : Run
  out : List Byte
deriving DecidableEq, Repr

/-- The reasons a step can stop outside the machine's own exceptions: none. Every error of the spec is an
exception whose entry R118 describes, so it is taken, into a next state with `run = faulted`; no meaning and
no step raises a `Fault` (safe: there is nothing to raise; log 7). -/
inductive Fault
deriving DecidableEq, Repr

/-- The reasons the model refuses. -/
inductive Refusal
  /-- Raised by `exec` for an instruction that has no meaning yet; no arm raises it now. Safe. -/
  | notModelled (mnemonic : String)
  /-- Raised by `load` for an image longer than 256 bytes: it "cannot be loaded" and "the core never starts"
  (R43, the spec's decision D18). Safe. -/
  | imageTooLong
  /-- Raised by `load` when `run` is not Loading: "the loader never acts again" (R43; log 3). Safe. -/
  | loaderDone
deriving DecidableEq, Repr

/-- Every piece of state immediately after reset, before the loader runs (R28). -/
def State.reset : State where
  regs := Vector.replicate Config.nregs Config.gprReset
  pc := Config.pcReset
  sp := Config.spReset
  fl := Config.flReset
  mem := []
  run := .loading
  out := []

end Sys2Proof.Machine
end

