-- ==== Sys2Proof/Machine/Ops.lean ====
section
/-! DEFINITION. The named operations over memory, registers, the stack and the output port (R6), instruction
fetch (R71), and taking an exception (R118). There is no return from an exception (R119): Faulted is
terminal, so no operation leaves it. -/

namespace Sys2Proof.Machine

/-- The content of cell `a`. -/
def Memory.read : Memory → Nat → Byte
  | [], _ => Config.memReset
  | c :: rest, a => if c.1 = a then c.2 else Memory.read rest a

/-- Insert a cell before the first one with a higher address. -/
def Memory.insert : Memory → Nat → Byte → Memory
  | [], a, v => [(a, v)]
  | c :: rest, a, v => if a < c.1 then (a, v) :: c :: rest else c :: Memory.insert rest a v

/-- Store `v` in cell `a`, keeping the canonical form: the cell's entry is dropped, and listed again unless
`v` is what an unlisted cell reads. -/
def Memory.write (m : Memory) (a : Nat) (v : Byte) : Memory :=
  let others := m.filter (fun c => c.1 ≠ a)
  if v = Config.memReset then others else Memory.insert others a v

/-- `mem[a]`. -/
def State.byteAt (s : State) (a : Nat) : Byte := Memory.read s.mem a

/-- `x[r]`: read a general register. -/
def State.x (s : State) (r : RegIndex) : Byte := s.regs[r]

/-- `x[r] <- v`. No register is hardwired (R12). -/
def State.setX (s : State) (r : RegIndex) (v : Byte) : State := { s with regs := s.regs.set r v }

/-- `pc <- target`. -/
def State.setPc (s : State) (target : Nat) : State := { s with pc := target }

/-- `sp <- v`. -/
def State.setSp (s : State) (v : Nat) : State := { s with sp := v }

/-- `fl <- v`: the whole register (R21). -/
def State.setFl (s : State) (v : Byte) : State := { s with fl := v }

/-- `run <- r`. -/
def State.setRun (s : State) (r : Run) : State := { s with run := r }

/-- `mem[a] <- v`. -/
def State.setByte (s : State) (a : Nat) (v : Byte) : State := { s with mem := Memory.write s.mem a v }

/-- `Output(v)`: append `v` to the output stream; it cannot fail (R92). -/
def State.output (s : State) (v : Byte) : State := { s with out := s.out ++ [v] }

/-- `MemRead(addr, 1)` (R31). -/
def memRead (addr : Nat) (s : State) : Except Exception Byte :=
  if addr < Config.memSize then .ok (s.byteAt addr) else .error (.outOfBounds addr)

/-- `MemWrite(addr, 1, v)` (R32). The address is an integer: one below 0 raises OutOfBounds too and does not
wrap. -/
def memWrite (addr : Int) (v : Byte) (s : State) : Except Exception State :=
  if 0 ≤ addr ∧ addr < Config.memSize then .ok (s.setByte addr.toNat v)
  else .error (.outOfBounds addr)

/-- Fetch: three bounds-checked reads in this order, whatever the instruction's length (R71). -/
def fetch (s : State) : Except Exception Fetched := do
  let ir ← memRead s.pc s
  let opa ← memRead (s.pc + 1) s
  let opb ← memRead (s.pc + 2) s
  return ⟨ir, opa, opb⟩

/-- The byte the cycle's fetch read at `pc + k`, present only if that read succeeded (R25). Reads go upward,
so none after the first failing one succeeds either. -/
def fetchedByte? (k : Nat) (s : State) : Option Byte := (memRead (s.pc + k) s).toOption

/-- The fault record a cycle that begins at `s` writes when it raises `e` (R25, R118 (3)). Memory still holds
the fetched bytes, because no cycle writes before it raises (log 8). -/
def faultRecord (e : Exception) (s : State) : FaultRecord where
  cause := e
  pc := s.pc
  ir := fetchedByte? 0 s
  opa := fetchedByte? 1 s
  opb := fetchedByte? 2 s

/-- Taking an exception (R118), from the state `s` of the start of the cycle, so that every write of the
cycle is discarded: `run <- Faulted` and the fault record is written. Nothing else changes. -/
def takeException (e : Exception) (s : State) : State := s.setRun (.faulted (faultRecord e s))

/-- `raise e`: the cycle that began at `s` ends by taking `e`. -/
def raise (e : Exception) (s : State) : Host.Outcome State Fault Refusal := .next (takeException e s)

/-- How a cycle that began at `s` ends: with the state its pseudocode reached, or with the exception it
raised (R70). -/
def endCycle (s : State) (r : Except Exception State) : Host.Outcome State Fault Refusal :=
  match r with
  | .ok t => .next t
  | .error e => raise e s

/-- The numeric code of an exception (R111). -/
def Exception.code : Exception → Nat
  | .outOfBounds _ => 1
  | .unsupportedOperation _ => 2
  | .unknownOpcode _ => 3
  | .invalidRegister _ _ => 4

/-- The exception a decode rejection raises (R72). -/
def decodeException : DecodeError → Exception
  | .unknownOpcode ir => .unknownOpcode ir
  | .invalidRegister slot value => .invalidRegister slot value

/-- The address a push writes: `sp` after the decrement (R95), -1 when `sp = 0`. -/
def pushAddress (s : State) : Int := (s.sp : Int) - 1

/-- Push one byte (R95): decrement `sp`, then write at the new `sp`; OutOfBounds when `sp = 0` (R18). -/
def push (v : Byte) (s : State) : Except Exception State := do
  let t ← memWrite (pushAddress s) v s
  return t.setSp (pushAddress s).toNat

/-- Pop one byte (R95): read at `sp`, then increment `sp`; OutOfBounds when `sp = 256` (R18). -/
def pop (s : State) : Except Exception (Byte × State) := do
  let v ← memRead s.sp s
  return (v, s.setSp (s.sp + 1))

end Sys2Proof.Machine
end

