-- ==== Sys2Proof/Machine/Flags.lean ====
section
/-! DEFINITION. The flags register's fields (R19) and the one flag computation, the comparison (R82). -/

namespace Sys2Proof.Machine

/-- E, Equal: bit 0 of `fl` (R19). -/
def flagE (fl : Byte) : Bool := fl.getLsbD 0

/-- G, Greater-than: bit 1 of `fl` (R19). -/
def flagG (fl : Byte) : Bool := fl.getLsbD 1

/-- L, Less-than: bit 2 of `fl` (R19). -/
def flagL (fl : Byte) : Bool := fl.getLsbD 2

/-- What a comparison of `a` with `b`, as unsigned numbers, leaves in `fl` (R82). -/
def compareFlags (a b : Byte) : Byte :=
  if a.toNat = b.toNat then 0b00000001
  else if a.toNat > b.toNat then 0b00000010
  else 0b00000100

end Sys2Proof.Machine
end

