-- ==== Sys2Proof/Machine/Operands.lean ====
section
/-! DEFINITION. The operand forms: the register operand `reg(b)` (R6, R52), and the reduction of an exact
result to a byte (R7). The only other operand, LDI's immediate, is its byte unchanged (R53). -/

namespace Sys2Proof.Machine

/-- `reg(b)`: the register an operand byte names. Above 7 it raises InvalidRegister, as the decoder already
has for any instruction that reaches execute (R6, R52; log 6). -/
def regOperand (slot : OperandSlot) (b : Byte) : Except Exception RegIndex :=
  if h : b.toNat < Config.nregs then .ok ⟨b.toNat, h⟩ else .error (.invalidRegister slot b)

/-- `v mod 256`, as a byte (R7, R84). -/
def wrap (v : Nat) : Byte := BitVec.ofNat 8 v

end Sys2Proof.Machine
end

