-- ==== Sys2Proof/Machine/Alu.lean ====
section
/-! DEFINITION. The ALU block (R80 to R83). Only CMP's meaning drives it; no instruction reaches ADD. -/

namespace Sys2Proof.Machine

/-- ALU operation ADD(a, b): `x[a] <- (x[a] + x[b]) mod 256`, no flag effect (R81). -/
def aluAdd (a b : RegIndex) (s : State) : State := s.setX a (wrap ((s.x a).toNat + (s.x b).toNat))

/-- ALU operation CMP(a, b): all of `fl` from the two registers (R82). -/
def aluCmp (a b : RegIndex) (s : State) : State := s.setFl (compareFlags (s.x a) (s.x b))

/-- The ALU's contract (R80): two operations, any other code raises UnsupportedOperation (R83). -/
def alu (op : AluOp) (a b : RegIndex) (s : State) : Except Exception State :=
  match op with
  | .add => .ok (aluAdd a b s)
  | .cmp => .ok (aluCmp a b s)
  | .sub | .and | .or | .xor | .not | .shl | .shr | .mod => .error (.unsupportedOperation op)

end Sys2Proof.Machine
end

