-- ==== Sys2Proof/Machine/Arithmetic.lean ====
section
/-! DEFINITION. CMP, MUL and DOUBLE (`41_alu.md`). -/

namespace Sys2Proof.Machine

/-- CMP regA, regB (R85): `fl <- 1, 2 or 4` by the ALU, `pc <- pc + 3`. -/
def execCmp (regA regB : Byte) (s : State) : Host.Outcome State Fault Refusal :=
  endCycle s do
    let a ← regOperand .a regA
    let b ← regOperand .b regB
    let t ← alu .cmp a b s
    return t.setPc (s.pc + 3)

/-- MUL regA, regB (R86): `x[a] <- (x[a] * x[b]) mod 256`, `pc <- pc + 3`; both reads precede the write. -/
def execMul (regA regB : Byte) (s : State) : Host.Outcome State Fault Refusal :=
  endCycle s do
    let a ← regOperand .a regA
    let b ← regOperand .b regB
    return (s.setX a (wrap ((s.x a).toNat * (s.x b).toNat))).setPc (s.pc + 3)

/-- DOUBLE reg (R87): `x[r] <- (x[r] * 2) mod 256`, `pc <- pc + 3`; the third byte is ignored. -/
def execDouble (reg : Byte) (s : State) : Host.Outcome State Fault Refusal :=
  endCycle s do
    let r ← regOperand .a reg
    return (s.setX r (wrap ((s.x r).toNat * 2))).setPc (s.pc + 3)

end Sys2Proof.Machine
end

