-- ==== Sys2Proof/Machine/Control.lean ====
section
/-! DEFINITION. JMP, JEQ, JNE, CALL, RET (`44_control_transfer.md`) and HLT (`40_dispatch_loop.md`). -/

namespace Sys2Proof.Machine

/-- JMP reg (R101): `pc <- x[r]`. -/
def execJmp (reg : Byte) (s : State) : Host.Outcome State Fault Refusal :=
  endCycle s do
    let r ← regOperand .a reg
    return s.setPc (s.x r).toNat

/-- JEQ reg (R102): `pc <- x[r]` if E is set, else `pc <- pc + 2`. -/
def execJeq (reg : Byte) (s : State) : Host.Outcome State Fault Refusal :=
  endCycle s do
    let r ← regOperand .a reg
    return s.setPc (if flagE s.fl then (s.x r).toNat else s.pc + 2)

/-- JNE reg (R103): `pc <- x[r]` if E is clear, else `pc <- pc + 2`. -/
def execJne (reg : Byte) (s : State) : Host.Outcome State Fault Refusal :=
  endCycle s do
    let r ← regOperand .a reg
    return s.setPc (if flagE s.fl then s.pc + 2 else (s.x r).toNat)

/-- The return address CALL pushes: `pc + 2`, which fits a byte whenever the CALL was fetched, since then
`pc <= 253` (R32, R104; log 5). -/
def returnAddress (s : State) : Byte := wrap (s.pc + 2)

/-- CALL reg (R104): push `pc + 2`, `pc <- x[r]`. -/
def execCall (reg : Byte) (s : State) : Host.Outcome State Fault Refusal :=
  endCycle s do
    let r ← regOperand .a reg
    let t ← push (returnAddress s) s
    return t.setPc (t.x r).toNat

/-- RET (R105): pop into `pc`. -/
def execRet (s : State) : Host.Outcome State Fault Refusal :=
  endCycle s do
    let (v, t) ← pop s
    return t.setPc v.toNat

/-- HLT (R75): `run <- Halted`; `pc` keeps the address of the HLT. -/
def execHlt (s : State) : Host.Outcome State Fault Refusal :=
  endCycle s (.ok (s.setRun .halted))

end Sys2Proof.Machine
end

