-- ==== Sys2Proof/Machine/LoadOutput.lean ====
section
/-! DEFINITION. LDI and PRN (`42_load_and_output.md`). -/

namespace Sys2Proof.Machine

/-- LDI reg, imm (R90): `x[r] <- imm`, `pc <- pc + 3`. -/
def execLdi (reg imm : Byte) (s : State) : Host.Outcome State Fault Refusal :=
  endCycle s do
    let r ← regOperand .a reg
    return (s.setX r imm).setPc (s.pc + 3)

/-- PRN reg (R91): `Output(x[r])`, `pc <- pc + 2`. -/
def execPrn (reg : Byte) (s : State) : Host.Outcome State Fault Refusal :=
  endCycle s do
    let r ← regOperand .a reg
    return (s.output (s.x r)).setPc (s.pc + 2)

end Sys2Proof.Machine
end

