-- ==== Sys2Proof/Machine/Stack.lean ====
section
/-! DEFINITION. PUSH and POP (`43_stack.md`). -/

namespace Sys2Proof.Machine

/-- PUSH reg (R96): push `x[r]`, `pc <- pc + 2`. -/
def execPush (reg : Byte) (s : State) : Host.Outcome State Fault Refusal :=
  endCycle s do
    let r ← regOperand .a reg
    let t ← push (s.x r) s
    return t.setPc (s.pc + 2)

/-- POP reg (R97): pop into `x[r]`, `pc <- pc + 2`. -/
def execPop (reg : Byte) (s : State) : Host.Outcome State Fault Refusal :=
  endCycle s do
    let r ← regOperand .a reg
    let (v, t) ← pop s
    return (t.setX r v).setPc (s.pc + 2)

end Sys2Proof.Machine
end

