-- ==== Sys2Proof/Machine/Loader.lean ====
section
/-! DEFINITION. The load interface (R43, R131): what the loader, outside the core, does to the machine. -/

namespace Sys2Proof.Machine

/-- Write the bytes of an image at `addr` and upward, one `MemWrite` each (R43). -/
def loadBytes (addr : Nat) : List Byte → State → Except Exception State
  | [], s => .ok s
  | v :: rest, s => do
    let t ← memWrite addr v s
    loadBytes (addr + 1) rest t

/-- The one-time bulk load: the image from address 0, then `run <- Running` (R43, R131). An image longer
than 256 bytes fails at the write to address 256 and the core never starts; the loader acts only while
`run` is Loading (log 3). -/
def load (image : List Byte) (s : State) : Host.Outcome State Fault Refusal :=
  match s.run with
  | .loading =>
    match loadBytes 0 image s with
    | .ok t => .next (t.setRun .running)
    | .error _ => .refused .imageTooLong
  | .running => .refused .loaderDone
  | .halted => .refused .loaderDone
  | .faulted _ => .refused .loaderDone

/-- Where a fetch can read three bytes: `pc`, or address 0 when `pc` is one of the addresses no instruction
can start at (R71; log 14). -/
def fetchPlace (s : State) : Nat := if s.pc + 2 < Config.memSize then s.pc else Config.pcReset

/-- The machine with the three bytes of `f` loaded where the next cycle fetches, and Running (log 2). -/
def placeFetched (f : Fetched) (s : State) : State :=
  let a := fetchPlace s
  ((((s.setPc a).setByte a f.ir).setByte (a + 1) f.opa).setByte (a + 2) f.opb).setRun .running

end Sys2Proof.Machine
end

