-- ==== Sys2Proof/Machine/Step.lean ====
section
/-! DEFINITION. One step of the machine: a dispatch cycle while Running (R70 to R73), nothing otherwise (R76). -/

namespace Sys2Proof.Machine

/-- One dispatch cycle (R70): fetch, decode, execute, the first exception met ending it (R117). In Loading,
Halted and Faulted the core performs no cycle and the state is unchanged, one of the two readings R76 calls
equivalent (log 1). -/
def step (s : State) : Host.Outcome State Fault Refusal :=
  match s.run with
  | .running =>
    match fetch s with
    | .error e => raise e s
    | .ok f =>
      match decode f with
      | .error d => raise (decodeException d) s
      | .ok i => exec i s
  | .loading => .next s
  | .halted => .next s
  | .faulted _ => .next s

/-- `s` with a table word loaded where the next cycle fetches, and the loop running: it stands for the
loader's work (log 2). -/
def State.withFetchWord (s : State) (nbits w : Nat) : State := placeFetched (tableBytes nbits w) s

end Sys2Proof.Machine
end

