-- ==== Sys2Proof/Safety.lean ====
section
/-! DEFINITION. The terms claims are stated in: the invariant, what a safe run is, frames, what one cycle
does by the spec's own fault list, and which registers an instruction reads and writes. -/

namespace Sys2Proof.Machine

/-- The 13 legal opcode values of R54, in decimal as the spec's table gives them. -/
def opcodeValues : List Nat := [1, 17, 69, 70, 71, 80, 84, 85, 86, 130, 160, 162, 167]

/-- The opcode values whose byte 1 is a register field: formats F1, F2RI, F2RR, F2RX (R51, R54). -/
def registerAValues : List Nat := [69, 70, 71, 80, 84, 85, 86, 130, 160, 162, 167]

/-- The opcode values whose byte 2 is a register field: format F2RR (R51, R54). -/
def registerBValues : List Nat := [162, 167]

/-- The opcode value R54's table gives each mnemonic. -/
def tableValue : Instr → Nat
  | .hlt => 1
  | .ret => 17
  | .push _ => 69
  | .pop _ => 70
  | .prn _ => 71
  | .call _ => 80
  | .jmp _ => 84
  | .jeq _ => 85
  | .jne _ => 86
  | .ldi _ _ => 130
  | .double _ _ => 160
  | .mul _ _ => 162
  | .cmp _ _ => 167

/-- The bytes at `pc`, `pc + 1` and `pc + 2`: what a fetch reads when `pc <= 253` (R71). -/
def State.bytesAtPc (s : State) : Fetched := ⟨s.byteAt s.pc, s.byteAt (s.pc + 1), s.byteAt (s.pc + 2)⟩

/-- An exception a program can cause (R111 to R115): UnsupportedOperation is not among them. -/
def Exception.possible : Exception → Prop
  | .outOfBounds addr => addr = 256 ∨ addr = -1
  | .unsupportedOperation _ => False
  | .unknownOpcode ir => ir.toNat ∉ opcodeValues
  | .invalidRegister _ value => 8 ≤ value.toNat

/-- What holds of every state a run reaches: the ranges of `pc` and `sp` (R16, R18), the legal values of
`fl` (R19, R21), memory in canonical form, and a fault record that describes the frozen state (R25, R118). -/
structure State.Inv (s : State) : Prop where
  pc_le : s.pc ≤ 256
  sp_le : s.sp ≤ 256
  fl_legal : s.fl = 0 ∨ s.fl = 1 ∨ s.fl = 2 ∨ s.fl = 4
  mem_wf : Memory.wf s.mem
  record_true : ∀ record, s.run = .faulted record →
    record = faultRecord record.cause s ∧ record.cause.possible

/-- The states a run can be in: loaded from reset, then stepped (R131). -/
inductive Reachable : State → Prop
  | reset : Reachable State.reset
  | load (image : List Byte) (s t : State) : Reachable s → load image s = .next t → Reachable t
  | step (s t : State) : Reachable s → step s = .next t → Reachable t

/-- The good end of a run: Halted (R74, R119). -/
def State.goodEnd (s : State) : Prop := s.run = .halted

/-- The bad end of a run: Faulted, whatever the cause (R74, R119). -/
def State.badEnd (s : State) : Prop := ∃ record, s.run = .faulted record

/-- A safe state: one whose run has not ended badly. -/
def State.safe (s : State) : Prop := ¬ s.badEnd

/-- What a frame allows to change beside `pc`: at most one general register, at most one memory cell, and
the named registers. -/
structure Touched where
  reg : Option RegIndex := none
  cell : Option Nat := none
  sp : Bool := false
  fl : Bool := false
  run : Bool := false
  out : Bool := false

/-- `t` differs from `s` in nothing but `pc` and what `k` names: every other general register, every other
byte of memory, and `sp`, `fl`, `run` (with the fault record) and `out` unless named. -/
structure Frame (k : Touched) (s t : State) : Prop where
  regs : ∀ r, k.reg ≠ some r → t.x r = s.x r
  bytes : ∀ a, k.cell ≠ some a → t.byteAt a = s.byteAt a
  sp : k.sp = false → t.sp = s.sp
  fl : k.fl = false → t.fl = s.fl
  run : k.run = false → t.run = s.run
  out : k.out = false → t.out = s.out

/-- The cycle of an instruction whose opcode byte is `op` and whose operand bytes are register fields where
`ra` (byte 1) and `rb` (byte 2) say so. Its encoding: a Running cycle that fetches `op` with legal register
bytes executes `mk opa opb`. Its exceptions before execute, in their order: OutOfBounds in fetch when
`pc >= 254`, InvalidRegister on byte 1, InvalidRegister on byte 2. -/
def CycleOf (op : Nat) (ra rb : Bool) (mk : Byte → Byte → Instr) : Prop :=
  ∀ s : State, s.run = .running → (s.byteAt s.pc).toNat = op →
    (254 ≤ s.pc → s.pc ≤ 256 → step s = .next (takeException (.outOfBounds 256) s)) ∧
    (s.pc ≤ 253 →
      step s =
        if ra ∧ 8 ≤ (s.byteAt (s.pc + 1)).toNat then
          .next (takeException (.invalidRegister .a (s.byteAt (s.pc + 1))) s)
        else if rb ∧ 8 ≤ (s.byteAt (s.pc + 2)).toNat then
          .next (takeException (.invalidRegister .b (s.byteAt (s.pc + 2))) s)
        else exec (mk (s.byteAt (s.pc + 1)) (s.byteAt (s.pc + 2))) s)

/-- The first exception a cycle that begins at `s` meets, by the order of precedence of R117 and the complete
list of R111 and R112; none when the instruction completes. -/
def firstException (s : State) : Option Exception :=
  let ir := s.byteAt s.pc
  let opa := s.byteAt (s.pc + 1)
  let opb := s.byteAt (s.pc + 2)
  if 254 ≤ s.pc then some (.outOfBounds 256)
  else if ir.toNat ∉ opcodeValues then some (.unknownOpcode ir)
  else if ir.toNat ∈ registerAValues ∧ 8 ≤ opa.toNat then some (.invalidRegister .a opa)
  else if ir.toNat ∈ registerBValues ∧ 8 ≤ opb.toNat then some (.invalidRegister .b opb)
  else if (ir.toNat = 69 ∨ ir.toNat = 80) ∧ s.sp = 0 then some (.outOfBounds (-1))
  else if (ir.toNat = 70 ∨ ir.toNat = 17) ∧ s.sp = 256 then some (.outOfBounds 256)
  else none

/-- The general registers an instruction reads in state `s`, as operand bytes: the "reads" column of R13. -/
def readsRegisters (s : State) : Instr → List Byte
  | .ldi _ _ | .pop _ | .hlt | .ret => []
  | .prn r | .push r | .call r | .jmp r | .double r _ => [r]
  | .jeq r => if flagE s.fl then [r] else []
  | .jne r => if flagE s.fl then [] else [r]
  | .cmp a b | .mul a b => [a, b]

/-- The general registers an instruction writes, as operand bytes: the "writes" column of R13. -/
def writesRegisters : Instr → List Byte
  | .ldi r _ | .pop r | .double r _ => [r]
  | .mul a _ => [a]
  | .prn _ | .push _ | .call _ | .jmp _ | .jeq _ | .jne _ | .cmp _ _ | .hlt | .ret => []

end Sys2Proof.Machine
end

