-- ==== Sys2Proof/Certificates/Slice0/Obligations.lean ====
section
/-! DEFINITION. The statements for the provers. Each docstring names the rule of spec/ it formalises, and the
spec's own decision (`92_eei_decisions.md` D<n>) where a clause rests on one. -/

open Sys2Proof Sys2Proof.Machine

/-! ## Reset and load -/

/-- R28: every piece of state right after reset. The zero of `fl` and of the registers are the spec's
decisions D6 and D7, `run = Loading` is D22. -/
def Obligations.ResetLeavesTheSpecValues : Prop :=
  (∀ r, State.reset.x r = 0) ∧ State.reset.pc = 0 ∧ State.reset.sp = 244 ∧ State.reset.fl = 0 ∧
    (∀ a, State.reset.byteAt a = 0) ∧ State.reset.run = .loading ∧ State.reset.out = []

/-- The start-up sequence of R131: after reset `run` is Loading; the loader writes the image from address 0
upward, the rest of memory still reads zero; `run` becomes Running; the first cycle fetches from 0;
registers, `pc`, `sp`, `fl` and `out` still hold their reset values (the zeros of `fl` and of the registers
are the spec's decisions D6 and D7). R131 says that the core executes nothing while Loading; that a Loading
step answers the state unchanged, rather than having no step, is the model's choice (log 1). -/
def Obligations.LoadedProgramStartsFromTheResetState : Prop :=
  State.reset.run = .loading ∧ step State.reset = .next State.reset ∧
  ∀ image : List Byte, image.length ≤ 256 →
    ∃ t, load image State.reset = .next t ∧ t.run = .running ∧ t.pc = 0 ∧ t.sp = 244 ∧ t.out = [] ∧
      (∀ r, t.x r = 0) ∧ t.fl = 0 ∧ (∀ a, t.byteAt a = image.getD a 0) ∧
      fetch t = .ok ⟨image.getD 0 0, image.getD 1 0, image.getD 2 0⟩

/-- R43 with the spec's decision D18: an image longer than 256 bytes is refused, so the core never starts;
and once `run` is not Loading "the loader never acts again" (the model refuses, log 3). -/
def Obligations.OverlongOrLateLoadIsRefused : Prop :=
  (∀ (image : List Byte) (s : State), s.run = .loading → 256 < image.length →
    load image s = .refused .imageTooLong) ∧
  (∀ (image : List Byte) (s : State), s.run ≠ .loading → load image s = .refused .loaderDone)

/-- R44: memory is zero-initialised before the load, so a cell nothing has written reads 0x00, and
"execution that runs into unwritten memory raises UnknownOpcode". -/
def Obligations.UnwrittenMemoryReadsZeroAndIsNoInstruction : Prop :=
  (∀ a, a < 256 → memRead a State.reset = .ok 0) ∧
  (∀ (image : List Byte) (t : State) (a : Nat), load image State.reset = .next t → image.length ≤ a →
    a < 256 → memRead a t = .ok 0) ∧
  (∀ s : State, s.run = .running → s.pc ≤ 253 → s.byteAt s.pc = 0 →
    step s = .next (takeException (.unknownOpcode 0) s))

/-! ## Encoding -/

/-- Every well-formed instruction, encoded and followed by any two bytes, decodes to itself: no operand bit,
DOUBLE's ignored byte included, is dropped (R50 to R54; the three-byte fetch is R71). -/
def Obligations.DecodeOfEncodeIsTheInstruction : Prop :=
  ∀ (i : Instr) (p q : Byte), i.WellFormed →
    ∃ f, Fetched.front (encode i ++ [p, q]) = some f ∧ decode f = .ok i

/-- The other direction: whatever decodes is well formed, its encoding is exactly the first bytes that were
fetched, and its length is `1 + ir[7:6]` (R55, R59, both derived by the spec). -/
def Obligations.DecodedBytesAreTheEncoding : Prop :=
  ∀ (f : Fetched) (i : Instr), decode f = .ok i →
    i.WellFormed ∧ encode i = [f.ir, f.opa, f.opb].take i.length ∧
      i.length = 1 + f.ir.toNat / 64 ∧ (encode i).length = i.length

/-- R52 and R72 with the spec's decision D9: an instruction with a register byte above 7 is rejected, and by
the first such byte in operand order (byte 1 before byte 2). -/
def Obligations.IllFormedEncodingIsRejectedAtItsFirstBadRegister : Prop :=
  ∀ (i : Instr) (p q : Byte), ¬ i.WellFormed →
    ∃ (f : Fetched) (slot : OperandSlot) (v : Byte), Fetched.front (encode i ++ [p, q]) = some f ∧
      i.registerOperands.find? (fun o => 8 ≤ o.2.toNat) = some (slot, v) ∧
      decode f = .error (.invalidRegister slot v)

/-- R56: the decoder matches all eight bits of `ir` against the 13 values of R54, and the operand bytes play
no part in selecting the instruction: `ir` outside the table is unknown whatever follows, and `ir` inside
the table selects the row with that value whatever follows. -/
def Obligations.OpcodeByteAloneSelectsTheInstruction : Prop :=
  (∀ f : Fetched, decode f = .error (.unknownOpcode f.ir) ↔ f.ir.toNat ∉ opcodeValues) ∧
  (∀ (f : Fetched) (i : Instr), decode f = .ok i → tableValue i = f.ir.toNat) ∧
  (∀ v ∈ opcodeValues, ∃ op, Opcode.ofByte? (BitVec.ofNat 8 v) = some op ∧
    ∀ (opa opb : Byte) (i : Instr), decode ⟨BitVec.ofNat 8 v, opa, opb⟩ = .ok i → i.opcode = op)

/-- Words written out bit by bit from the encodings of R75, R105, R96, R104, R103, R90, R87, R86 and R85, one
of each family, decode to their instructions. -/
def Obligations.SpecWordsDecode : Prop :=
  decode ⟨0b00000001, 0b11111111, 0b11111111⟩ = .ok .hlt ∧
  decode ⟨0b00010001, 0b00000000, 0b11111111⟩ = .ok .ret ∧
  decode ⟨0b01000101, 0b00000101, 0b10101010⟩ = .ok (.push 5) ∧
  decode ⟨0b01010000, 0b00000001, 0b00000000⟩ = .ok (.call 1) ∧
  decode ⟨0b01010110, 0b00000010, 0b00000000⟩ = .ok (.jne 2) ∧
  decode ⟨0b10000010, 0b00000111, 0b11111110⟩ = .ok (.ldi 7 254) ∧
  decode ⟨0b10100000, 0b00000011, 0b01000111⟩ = .ok (.double 3 71) ∧
  decode ⟨0b10100010, 0b00000010, 0b00000110⟩ = .ok (.mul 2 6) ∧
  decode ⟨0b10100111, 0b00000100, 0b00000000⟩ = .ok (.cmp 4 0)

/-- R58 with the spec's decisions D3 and D21: fetched bytes that are no part of the instruction, and DOUBLE's
third byte, are ignored: for a one-byte instruction no value of `opa` or `opb`, for a two-byte one no value of
`opb`, changes or spoils the decoded instruction; DOUBLE's third byte is never checked and its meaning does
not depend on it. -/
def Obligations.UnusedFetchedBytesAreIgnored : Prop :=
  (∀ (f : Fetched) (i : Instr) (opa opb : Byte), decode f = .ok i → i.length = 1 →
    decode ⟨f.ir, opa, opb⟩ = .ok i) ∧
  (∀ (f : Fetched) (i : Instr) (opb : Byte), decode f = .ok i → i.length = 2 →
    decode ⟨f.ir, f.opa, opb⟩ = .ok i) ∧
  (∀ (f : Fetched) (r pad opb : Byte), decode f = .ok (.double r pad) →
    decode ⟨f.ir, f.opa, opb⟩ = .ok (.double r opb)) ∧
  (∀ (r p q : Byte) (s : State), exec (.double r p) s = exec (.double r q) s)

/-! ## The cycle -/

/-- R70 to R73: when the three bytes at `pc` are readable and decode to an instruction, a Running step is that
instruction's meaning at that very state: the step adds nothing around it, "no implicit '+1' applied by the
loop itself" (R73). -/
def Obligations.StepRunsTheDecodedInstruction : Prop :=
  ∀ (s : State) (i : Instr), s.run = .running → s.pc ≤ 253 → decode s.bytesAtPc = .ok i →
    step s = exec i s

/-- An instruction whose encoding stands in memory from `pc` runs, whatever bytes follow it (R50, R71, R72). -/
def Obligations.EncodedInstructionAtPcRuns : Prop :=
  ∀ (s : State) (i : Instr), s.run = .running → s.pc ≤ 253 → i.WellFormed →
    (∀ (k : Nat) (h : k < (encode i).length), s.byteAt (s.pc + k) = (encode i)[k]) →
    step s = exec i s

/-- R71 with the spec's decision D3: a Running cycle at `pc` 254, 255 or 256 faults in fetch whatever bytes
stand there, at address 256, and the record holds exactly the bytes whose reads succeeded. -/
def Obligations.FetchPastTheTopFaults : Prop :=
  ∀ s : State, s.run = .running → 254 ≤ s.pc → s.pc ≤ 256 →
    ∃ t record, step s = .next t ∧ t = s.setRun (.faulted record) ∧
      record.cause = .outOfBounds 256 ∧ record.pc = s.pc ∧ record.opb = none ∧
      record.opa = (if s.pc = 254 then some (s.byteAt 255) else none) ∧
      record.ir = (if s.pc = 256 then none else some (s.byteAt s.pc))

/-- R114, R57 with the spec's decision D8: an opcode byte outside the table faults, whatever the operand
bytes and the stack pointer, and the record names it. -/
def Obligations.UnknownOpcodeFaults : Prop :=
  ∀ s : State, s.run = .running → s.pc ≤ 253 → (s.byteAt s.pc).toNat ∉ opcodeValues →
    ∃ t record, step s = .next t ∧ t = s.setRun (.faulted record) ∧
      record.cause = .unknownOpcode (s.byteAt s.pc) ∧ record.cause.code = 3 ∧ record.pc = s.pc ∧
      record.ir = some (s.byteAt s.pc) ∧ record.opa = some (s.byteAt (s.pc + 1)) ∧
      record.opb = some (s.byteAt (s.pc + 2))

/-- R117 with the spec's decision D12, R111 and R112: a Running cycle takes exactly the first exception in the
order fetch, opcode, register a, register b, stack access, and completes, Running or Halted, when there is
none. `firstException` is the list of R111 written out over the bytes at `pc`, without the decoder. -/
def Obligations.CyclesFaultExactlyInPriorityOrder : Prop :=
  ∀ s : State, s.Inv → s.run = .running →
    (∀ e, firstException s = some e → step s = .next (takeException e s)) ∧
    (firstException s = none → ∃ t, step s = .next t ∧ (t.run = .running ∨ t.run = .halted))

/-- The model's form of its outcomes: no instruction's meaning and no step, from any state at all, ends in a host
fault or a refusal. That an exception of the spec is a next state, with `run` Faulted, and no host fault is the
model's choice after R118 (log 7); that Loading, Halted and Faulted answer a next state, where the spec says
'no step by the core' or equivalently the state unchanged (R76), is the model's choice too (log 1). -/
def Obligations.EveryStepAnswersANextState : Prop :=
  (∀ (i : Instr) (s : State), ∃ t, exec i s = .next t) ∧ ∀ s : State, ∃ t, step s = .next t

/-- R76, R70 with the spec's decision D22: in Loading, Halted and Faulted the core performs no cycle; the
model answers the state unchanged for any number of steps (log 1). -/
def Obligations.LoadingHaltedAndFaultedAreInert : Prop :=
  ∀ (s : State) (n : Nat), s.run ≠ .running → Host.Core.run core n s = .next s

/-- R22 and R74 with the spec's decisions D10 and D22: from Running a step stays Running, halts or faults, and
it reaches the good end only by an HLT at `pc`, changing nothing but `run`. -/
def Obligations.OnlyHltReachesTheGoodEnd : Prop :=
  ∀ s t : State, s.run = .running → step s = .next t →
    (t.run = .running ∨ t.goodEnd ∨ t.badEnd) ∧
    (t.goodEnd ↔ s.pc ≤ 253 ∧ s.byteAt s.pc = 1) ∧
    (t.goodEnd → t = s.setRun .halted)

/-! ## Exceptions -/

/-- R118 with the spec's decision D10: a cycle that faults discards every write: the state is the one before it
but for `run`, and the record holds `pc` at the start of the cycle and the fetched bytes whose reads
succeeded; and, where `pc` and `sp` are in their ranges (the invariant), its cause with the info is the first
exception the cycle meets by R111 and R117 (`firstException`, the order by the spec's decision D12). -/
def Obligations.FaultsArePreciseAndRecorded : Prop :=
  ∀ (s t : State) (record : FaultRecord), s.run = .running → step s = .next t →
    t.run = .faulted record →
    t = s.setRun (.faulted record) ∧ record.pc = s.pc ∧
      record.ir = (if s.pc ≤ 255 then some (s.byteAt s.pc) else none) ∧
      record.opa = (if s.pc + 1 ≤ 255 then some (s.byteAt (s.pc + 1)) else none) ∧
      record.opb = (if s.pc + 2 ≤ 255 then some (s.byteAt (s.pc + 2)) else none) ∧
      (s.Inv → firstException s = some record.cause)

/-- R113, derived by the spec: no program causes UnsupportedOperation; in every state a run can reach, the
cause of a fault has code 1, 3 or 4 (the codes are the spec's decision D11). -/
def Obligations.UnsupportedOperationIsUnreachable : Prop :=
  ∀ (s : State) (record : FaultRecord), Reachable s → s.run = .faulted record →
    record.cause.code = 1 ∨ record.cause.code = 3 ∨ record.cause.code = 4

/-- A fault is final and its record is never changed or cleared by the core (R119, derived by the spec), however
many steps are asked for; a Faulted step answers the state unchanged by the model's choice (log 1). Nor does
the loader act on a Faulted machine: that such a load is refused is the model's choice (log 3). -/
def Obligations.TheFaultRecordIsNeverRewritten : Prop :=
  ∀ (s t : State) (record : FaultRecord) (n : Nat), s.run = .faulted record →
    Host.Core.run core n s = .next t → t.run = .faulted record ∧ ∀ image, load image t = .refused .loaderDone

/-- The model's choice for terms that are not well formed (log 6): the meaning of an instruction with a register
byte above 7 takes InvalidRegister on the first such byte, whether or not it would use the register (JEQ and
JNE included) and before any stack fault, as the decoder does for its encoding (R52, R115, the spec's decision
D9). The spec raises it in decode, and no such term reaches execute (R6). -/
def Obligations.IllFormedInstructionTakesInvalidRegister : Prop :=
  ∀ (i : Instr) (s : State) (slot : OperandSlot) (v : Byte),
    i.registerOperands.find? (fun o => 8 ≤ o.2.toNat) = some (slot, v) →
    exec i s = .next (takeException (.invalidRegister slot v) s)

/-! ## The ALU -/

/-- The ALU's contract (R80): ADD writes `x[a]` with the sum modulo 256 and no flag (R81, the spec's decision
D1), CMP writes all of `fl` and no register (R82, D16, D23), any other code raises UnsupportedOperation (R83). -/
def Obligations.AluAddsComparesAndRejectsTheRest : Prop :=
  ∀ (a b : RegIndex) (s : State),
    (∃ t, alu .add a b s = .ok t ∧ (t.x a).toNat = ((s.x a).toNat + (s.x b).toNat) % 256 ∧
      t.pc = s.pc ∧ Frame { reg := some a } s t) ∧
    (∃ t, alu .cmp a b s = .ok t ∧ (flagE t.fl = true ↔ s.x a = s.x b) ∧
      (flagG t.fl = true ↔ (s.x b).toNat < (s.x a).toNat) ∧
      (flagL t.fl = true ↔ (s.x a).toNat < (s.x b).toNat) ∧ t.fl.toNat < 8 ∧
      t.pc = s.pc ∧ Frame { fl := true } s t) ∧
    (∀ op, op ≠ .add → op ≠ .cmp → alu op a b s = .error (.unsupportedOperation op))

/-! ## The instructions: encoding and exceptions of the cycle, completion, result and frame -/

/-- R90, LDI: opcode 130 with a register byte and an immediate; `x[r] <- imm`, `pc + 3`, nothing else. -/
def Obligations.LdiLoadsItsImmediate : Prop :=
  CycleOf 130 true false .ldi ∧
  ∀ (r : RegIndex) (imm : Byte) (s : State), ∃ t, exec (.ldi (regByte r) imm) s = .next t ∧
    t.x r = imm ∧ t.pc = s.pc + 3 ∧ Frame { reg := some r } s t

/-- R91, PRN: opcode 71 with a register byte, byte 2 ignored; the register's value is appended to `out`,
`pc + 2`, nothing else. -/
def Obligations.PrnAppendsTheRegisterToTheOutput : Prop :=
  CycleOf 71 true false (fun a _ => .prn a) ∧
  ∀ (r : RegIndex) (s : State), ∃ t, exec (.prn (regByte r)) s = .next t ∧
    t.out = s.out ++ [s.x r] ∧ t.pc = s.pc + 2 ∧ Frame { out := true } s t

/-- R85, CMP: opcode 167 with two register bytes; E, G, L are the unsigned comparison of the two registers and
no other bit of `fl` is set, so `fl` is 1, 2 or 4; equal registers, a register with itself among them, give 1;
`pc + 3`, nothing else. -/
def Obligations.CmpSetsExactlyOneFlag : Prop :=
  CycleOf 167 true true .cmp ∧
  ∀ (a b : RegIndex) (s : State), ∃ t, exec (.cmp (regByte a) (regByte b)) s = .next t ∧
    (s.x a = s.x b → t.fl = 0b001) ∧ ((s.x b).toNat < (s.x a).toNat → t.fl = 0b010) ∧
    ((s.x a).toNat < (s.x b).toNat → t.fl = 0b100) ∧ (a = b → t.fl = 0b001) ∧
    t.pc = s.pc + 3 ∧ Frame { fl := true } s t

/-- R86, MUL, wrapping by the spec's decision D1: opcode 162 with two register bytes; `x[a]` is the product of
the old values modulo 256, `a = b` included; `pc + 3`, no flag, nothing else. -/
def Obligations.MulKeepsTheLowByteOfTheProduct : Prop :=
  CycleOf 162 true true .mul ∧
  ∀ (a b : RegIndex) (s : State), ∃ t, exec (.mul (regByte a) (regByte b)) s = .next t ∧
    (t.x a).toNat = (s.x a).toNat * (s.x b).toNat % 256 ∧ t.pc = s.pc + 3 ∧
    Frame { reg := some a } s t

/-- R87, DOUBLE, wrapping by the spec's decision D1 and three bytes long by D14: opcode 160 with a register
byte and an ignored byte; `x[r]` is twice its old value modulo 256; `pc + 3`, no flag, nothing else. -/
def Obligations.DoubleDoublesAndAdvancesByThree : Prop :=
  CycleOf 160 true false .double ∧
  ∀ (r : RegIndex) (pad : Byte) (s : State), ∃ t, exec (.double (regByte r) pad) s = .next t ∧
    (t.x r).toNat = (s.x r).toNat * 2 % 256 ∧ t.pc = s.pc + 3 ∧ Frame { reg := some r } s t

/-- R96, PUSH, with the spec's decision D5: opcode 69 with a register byte. With `1 <= sp <= 256` it stores
`x[r]` at the decremented `sp`, `pc + 2`, nothing else; with `sp = 0` it takes OutOfBounds at address -1. -/
def Obligations.PushStoresBelowTheStackPointer : Prop :=
  CycleOf 69 true false (fun a _ => .push a) ∧
  (∀ (r : RegIndex) (s : State), 1 ≤ s.sp → s.sp ≤ 256 →
    ∃ t, exec (.push (regByte r)) s = .next t ∧ (t.sp : Int) = pushAddress s ∧
      t.byteAt (pushAddress s).toNat = s.x r ∧ t.sp = s.sp - 1 ∧ t.pc = s.pc + 2 ∧
      Frame { sp := true, cell := some (pushAddress s).toNat } s t) ∧
  (∀ (r : RegIndex) (s : State), s.sp = 0 →
    exec (.push (regByte r)) s = .next (takeException (.outOfBounds (-1)) s))

/-- R97, POP, with the spec's decision D5: opcode 70 with a register byte. With `sp <= 255` it loads the byte
at `sp`, `sp + 1`, `pc + 2`, nothing else, memory included; with `sp = 256` it takes OutOfBounds at 256. -/
def Obligations.PopLoadsFromTheStackPointer : Prop :=
  CycleOf 70 true false (fun a _ => .pop a) ∧
  (∀ (r : RegIndex) (s : State), s.sp ≤ 255 →
    ∃ t, exec (.pop (regByte r)) s = .next t ∧ t.x r = s.byteAt s.sp ∧ t.sp = s.sp + 1 ∧
      t.pc = s.pc + 2 ∧ Frame { reg := some r, sp := true } s t) ∧
  (∀ (r : RegIndex) (s : State), s.sp = 256 →
    exec (.pop (regByte r)) s = .next (takeException (.outOfBounds 256) s))

/-- R101, JMP: opcode 84 with a register byte, byte 2 ignored; `pc <- x[r]`, nothing else. -/
def Obligations.JmpGoesToTheRegister : Prop :=
  CycleOf 84 true false (fun a _ => .jmp a) ∧
  ∀ (r : RegIndex) (s : State), ∃ t, exec (.jmp (regByte r)) s = .next t ∧
    t.pc = (s.x r).toNat ∧ Frame {} s t

/-- R102, JEQ, its register check by the spec's decision D9: opcode 85 with a register byte; taken exactly
when E, bit 0 of `fl`, is set, else `pc + 2`; nothing else. -/
def Obligations.JeqBranchesWhenEqualIsSet : Prop :=
  CycleOf 85 true false (fun a _ => .jeq a) ∧
  ∀ (r : RegIndex) (s : State), ∃ t, exec (.jeq (regByte r)) s = .next t ∧
    (s.fl.getLsbD 0 = true → t.pc = (s.x r).toNat) ∧ (s.fl.getLsbD 0 = false → t.pc = s.pc + 2) ∧
    Frame {} s t

/-- R103, JNE, its register check by the spec's decision D9: opcode 86 with a register byte; taken exactly
when E, bit 0 of `fl`, is clear, else `pc + 2`; nothing else. -/
def Obligations.JneBranchesWhenEqualIsClear : Prop :=
  CycleOf 86 true false (fun a _ => .jne a) ∧
  ∀ (r : RegIndex) (s : State), ∃ t, exec (.jne (regByte r)) s = .next t ∧
    (s.fl.getLsbD 0 = false → t.pc = (s.x r).toNat) ∧ (s.fl.getLsbD 0 = true → t.pc = s.pc + 2) ∧
    Frame {} s t

/-- R104, CALL, with the spec's decision D5: opcode 80 with a register byte. With `1 <= sp <= 256` it stores
the return address at the decremented `sp` and goes to `x[r]`; the return address of a CALL that a cycle can
fetch (`pc <= 253`) is `pc + 2` exactly; nothing else. With `sp = 0` it takes OutOfBounds at address -1. -/
def Obligations.CallPushesTheReturnAddress : Prop :=
  CycleOf 80 true false (fun a _ => .call a) ∧
  (∀ (r : RegIndex) (s : State), 1 ≤ s.sp → s.sp ≤ 256 →
    ∃ t, exec (.call (regByte r)) s = .next t ∧ (t.sp : Int) = pushAddress s ∧ t.sp = s.sp - 1 ∧
      (s.pc ≤ 253 → (t.byteAt (pushAddress s).toNat).toNat = s.pc + 2) ∧ t.pc = (s.x r).toNat ∧
      Frame { sp := true, cell := some (pushAddress s).toNat } s t) ∧
  (∀ (r : RegIndex) (s : State), s.sp = 0 →
    exec (.call (regByte r)) s = .next (takeException (.outOfBounds (-1)) s))

/-- R105, RET, with the spec's decision D5: opcode 17, operand bytes ignored. With `sp <= 255` it goes to the
byte at `sp`, `sp + 1`, nothing else; with `sp = 256` it takes OutOfBounds at 256. -/
def Obligations.RetGoesToTheByteOnTop : Prop :=
  CycleOf 17 false false (fun _ _ => .ret) ∧
  (∀ s : State, s.sp ≤ 255 →
    ∃ t, exec .ret s = .next t ∧ t.pc = (s.byteAt s.sp).toNat ∧ t.sp = s.sp + 1 ∧
      Frame { sp := true } s t) ∧
  (∀ s : State, s.sp = 256 → exec .ret s = .next (takeException (.outOfBounds 256) s))

/-- R75, HLT, `pc` kept by the spec's decision D13: opcode 1, operand bytes ignored; `run <- Halted`, nothing
else. -/
def Obligations.HltHaltsAndKeepsThePc : Prop :=
  CycleOf 1 false false (fun _ _ => .hlt) ∧
  ∀ s : State, ∃ t, exec .hlt s = .next t ∧ t.run = .halted ∧ t.pc = s.pc ∧ Frame { run := true } s t

/-! ## Rules over all instructions -/

/-- R20 over whole steps: CMP is the only writer of `fl`; no other instruction changes it. What CMP leaves is
1, 2 or 4, so it writes all three bits and bits 7:3 are zero (R19, R21, R82; the spec's decision D16). JEQ and
JNE are the only readers and read bit 0 only: the step of a state with any other `fl` differs in `fl` alone if
the instruction is no branch on E, and for every instruction if the two agree on bit 0. So `fl` reaches no
register, no memory and no stack. The ALU's ADD has no flag effect either. -/
def Obligations.FlagsAreWrittenByCmpAndReadOnlyAsEqual : Prop :=
  (∀ s t : State, step s = .next t → t.fl ≠ s.fl → s.run = .running ∧ s.byteAt s.pc = 167) ∧
  (∀ s t : State, s.run = .running → s.byteAt s.pc = 167 → step s = .next t → t.run = .running →
    t.fl = 0b001 ∨ t.fl = 0b010 ∨ t.fl = 0b100) ∧
  (∀ (s t : State) (f : Byte), step s = .next t →
    flagE f = flagE s.fl ∨ (s.byteAt s.pc ≠ 85 ∧ s.byteAt s.pc ≠ 86) →
    ∃ g, step (s.setFl f) = .next (t.setFl g)) ∧
  (∀ (a b : RegIndex) (s t : State), alu .add a b s = .ok t → t.fl = s.fl)

/-- R13: an instruction that completes writes no general register but those of the table's "writes" column,
and reads none but those of its "reads" column (JEQ and JNE read theirs only when taken): changing any other
register before it changes nothing after it but that register. "The loader does not touch the registers." -/
def Obligations.RegistersAreReadAndWrittenAsTheTableSays : Prop :=
  (∀ (i : Instr) (s t : State), exec i s = .next t → (∀ record, t.run ≠ .faulted record) →
    (∀ q, regByte q ∉ writesRegisters i → t.x q = s.x q) ∧
    (∀ (q : RegIndex) (v : Byte), regByte q ∉ readsRegisters s i →
      exec i (s.setX q v) = .next (if regByte q ∈ writesRegisters i then t else t.setX q v))) ∧
  (∀ (image : List Byte) (s t : State), load image s = .next t → ∀ q, t.x q = s.x q)

/-- R24 with the spec's decision D17: only PRN appends to `out`, one value; nothing removes; and the core
cannot observe `out`: a state with another output stream takes the same step, appending the same values. -/
def Obligations.OutputIsAppendOnlyAndUnobservable : Prop :=
  ∀ (s t : State) (o : List Byte), step s = .next t →
    ∃ new, t.out = s.out ++ new ∧ step { s with out := o } = .next { t with out := o ++ new } ∧
      (new = [] ∨ s.run = .running ∧ s.byteAt s.pc = 71 ∧
        ∃ r, s.byteAt (s.pc + 1) = regByte r ∧ new = [s.x r])

/-- R23 and R36: a step changes at most one byte of memory, at `sp - 1`, and only by PUSH, which stores the
register, or CALL, which stores `pc + 2`. -/
def Obligations.OnlyPushAndCallWriteMemory : Prop :=
  ∀ (s t : State) (a : Nat), step s = .next t → t.byteAt a ≠ s.byteAt a →
    s.run = .running ∧ (a : Int) = pushAddress s ∧ t.sp = a ∧
      ((s.byteAt s.pc = 69 ∧ ∃ r, s.byteAt (s.pc + 1) = regByte r ∧ t.byteAt a = s.x r) ∨
        (s.byteAt s.pc = 80 ∧ (t.byteAt a).toNat = s.pc + 2))

/-- R17: `sp` is written only by PUSH and CALL (decrement by 1) and POP and RET (increment by 1). -/
def Obligations.StackPointerMovesByOneAndOnlyByStackInstructions : Prop :=
  ∀ s t : State, step s = .next t → t.sp ≠ s.sp →
    (t.sp + 1 = s.sp ∧ (s.byteAt s.pc = 69 ∨ s.byteAt s.pc = 80)) ∨
      (t.sp = s.sp + 1 ∧ (s.byteAt s.pc = 70 ∨ s.byteAt s.pc = 17))

/-- Every step keeps the invariant: `pc` and `sp` in 0..256 (R16, R18), `fl` in 0, 1, 2, 4 (R19, R21), memory
canonical (the model's form, log 11), a true fault record (R25). From every state that meets it, not only
from reset. -/
def Obligations.EveryStepKeepsTheInvariant : Prop :=
  ∀ s t : State, s.Inv → step s = .next t → t.Inv

/-- The invariant holds at reset. -/
def Obligations.ResetMeetsTheInvariant : Prop := State.reset.Inv

/-- A load keeps the invariant (R43). -/
def Obligations.LoadKeepsTheInvariant : Prop :=
  ∀ (image : List Byte) (s t : State), s.Inv → load image s = .next t → t.Inv

/-! ## Sequences -/

/-- R95, the stack discipline: a push decrements `sp` and then writes at the new `sp`; a pop reads at `sp` and
then increments it; a pop does not erase the cell; from reset the first push lands at 0xF3, and a pop of the
empty stack is not stopped: it reads `mem[0xF4]` and leaves `sp = 0xF5`. -/
def Obligations.StackIsFullDescending : Prop :=
  (∀ (s : State) (v : Byte), 1 ≤ s.sp → s.sp ≤ 256 →
    ∃ t, push v s = .ok t ∧ t.sp = s.sp - 1 ∧ t.byteAt t.sp = v ∧
      t.pc = s.pc ∧ Frame { sp := true, cell := some (s.sp - 1) } s t ∧
      ∃ u, pop t = .ok (v, u) ∧ u.sp = s.sp ∧ u.byteAt (u.sp - 1) = v) ∧
  (∀ s : State, s.sp ≤ 255 → ∃ t, pop s = .ok (s.byteAt s.sp, t) ∧ t.sp = s.sp + 1 ∧
    t.pc = s.pc ∧ Frame { sp := true } s t) ∧
  (∀ (s : State) (v : Byte), s.sp = State.reset.sp → State.reset.sp = 0xF4 ∧
    (∃ t, push v s = .ok t ∧ t.sp = 0xF3 ∧ t.byteAt 0xF3 = v) ∧
    ∃ t, pop s = .ok (s.byteAt 0xF4, t) ∧ t.sp = 0xF5)

/-- "PUSH then POP of the same register leaves that register's value unchanged and SP restored" (R96), and
PUSH rA then POP rB copies `x[A]` to `x[B]` (R97), nothing else changing but the pushed cell. -/
def Obligations.PushThenPopCopiesTheRegister : Prop :=
  ∀ (a b : RegIndex) (s : State), 1 ≤ s.sp → s.sp ≤ 256 →
    ∃ t u, exec (.push (regByte a)) s = .next t ∧ exec (.pop (regByte b)) t = .next u ∧
      u.x b = s.x a ∧ u.sp = s.sp ∧ u.pc = s.pc + 4 ∧ (a = b → ∀ r, u.x r = s.x r) ∧
      Frame { reg := some b, cell := some (s.sp - 1) } s u

/-- R106, the CALL/RET contract, derived by the spec from R104 and R105: whatever balanced code runs between,
a RET that finds `sp` and the byte at it as the CALL left them resumes at the CALL's `pc + 2` with `sp`
restored. -/
def Obligations.ReturnResumesAfterTheCall : Prop :=
  ∀ (r : RegIndex) (s t u : State), 1 ≤ s.sp → s.sp ≤ 256 → s.pc ≤ 253 →
    exec (.call (regByte r)) s = .next t → u.sp = t.sp → u.byteAt u.sp = t.byteAt t.sp →
    ∃ v, exec .ret u = .next v ∧ v.pc = s.pc + 2 ∧ v.sp = s.sp

/-- R103, R102: after a CMP exactly one of JEQ and JNE to the same register is taken, JEQ exactly when the two
registers are equal; and in every state, the reset `fl` included, one of the two is taken and the other falls
through. -/
def Obligations.ExactlyOneOfJeqAndJneIsTaken : Prop :=
  (∀ (r : RegIndex) (s t u : State), exec (.jeq (regByte r)) s = .next t →
    exec (.jne (regByte r)) s = .next u →
    (t.pc = (s.x r).toNat ∧ u.pc = s.pc + 2) ∨ (t.pc = s.pc + 2 ∧ u.pc = (s.x r).toNat)) ∧
  (∀ (a b r : RegIndex) (s t u v : State), exec (.cmp (regByte a) (regByte b)) s = .next t →
    exec (.jeq (regByte r)) t = .next u → exec (.jne (regByte r)) t = .next v →
    if s.x a = s.x b then u.pc = (s.x r).toNat ∧ v.pc = s.pc + 5
    else u.pc = s.pc + 5 ∧ v.pc = (s.x r).toNat)

/-- R41, derived by the spec: a byte stored by PUSH or CALL is what the very next fetch of its address reads,
as opcode or as operand byte, even over the program. -/
def Obligations.StoredByteIsFetchedByTheNextCycle : Prop :=
  ∀ (s t : State) (r : RegIndex) (k : Nat), 1 ≤ s.sp → s.sp ≤ 256 → t.pc ≤ 253 → k < 3 →
    (t.pc + k : Int) = pushAddress s →
    (exec (.push (regByte r)) s = .next t →
      ∃ f, fetch t = .ok f ∧ [f.ir, f.opa, f.opb][k]? = some (s.x r)) ∧
    (exec (.call (regByte r)) s = .next t →
      ∃ f, fetch t = .ok f ∧ [f.ir, f.opa, f.opb][k]? = some (returnAddress s))

/-! ## Memory -/

/-- R31 and R32 with the spec's decision D5: a read is in range exactly below 256; a write exactly in 0..255,
so one below 0 faults and does not wrap; "every read returns the value of the most recent write to that
address" (R39), and a write changes no other byte and nothing else. -/
def Obligations.MemoryReadsTheMostRecentWrite : Prop :=
  (∀ (a : Nat) (s : State), memRead a s = if a ≤ 255 then .ok (s.byteAt a) else .error (.outOfBounds a)) ∧
  (∀ (a : Int) (v : Byte) (s : State), a < 0 ∨ 255 < a → memWrite a v s = .error (.outOfBounds a)) ∧
  (∀ (a : Nat) (v : Byte) (s : State), a ≤ 255 →
    ∃ t, memWrite a v s = .ok t ∧ t = { s with mem := t.mem } ∧ memRead a t = .ok v ∧
      ∀ b, b ≠ a → memRead b t = memRead b s)

/-- The model's canonical form (log 11) is one: two canonical memories that read alike at every address are the
same data; every write to a cell of the machine keeps the form; and a write to a cell just written leaves the
same data as the second write alone. -/
def Obligations.CanonicalMemoriesThatReadAlikeAreEqual : Prop :=
  (∀ m n : Memory, Memory.wf m → Memory.wf n → (∀ a, Memory.read m a = Memory.read n a) → m = n) ∧
  (∀ (m : Memory) (a : Nat) (v : Byte), Memory.wf m → a < 256 → Memory.wf (Memory.write m a v)) ∧
  (∀ (m : Memory) (a : Nat) (v w : Byte), Memory.wf m → a < 256 →
    Memory.write (Memory.write m a v) a w = Memory.write m a w)
end

