-- ==== Sys2Proof/Laws/State.lean ====
section
/-! SUPPORT. One lemma per field per update of State, and the laws of the register file: no later proof unfolds
a record update. -/

namespace Sys2Proof.Machine

variable (s : State)

@[simp] theorem State.setX_regs (r : RegIndex) (v : Byte) : (s.setX r v).regs = s.regs.set r v := rfl
@[simp] theorem State.setX_pc (r : RegIndex) (v : Byte) : (s.setX r v).pc = s.pc := rfl
@[simp] theorem State.setX_sp (r : RegIndex) (v : Byte) : (s.setX r v).sp = s.sp := rfl
@[simp] theorem State.setX_fl (r : RegIndex) (v : Byte) : (s.setX r v).fl = s.fl := rfl
@[simp] theorem State.setX_mem (r : RegIndex) (v : Byte) : (s.setX r v).mem = s.mem := rfl
@[simp] theorem State.setX_run (r : RegIndex) (v : Byte) : (s.setX r v).run = s.run := rfl
@[simp] theorem State.setX_out (r : RegIndex) (v : Byte) : (s.setX r v).out = s.out := rfl
@[simp] theorem State.setX_byteAt (r : RegIndex) (v : Byte) (c : Nat) : (s.setX r v).byteAt c = s.byteAt c := rfl

@[simp] theorem State.setPc_regs (n : Nat) : (s.setPc n).regs = s.regs := rfl
@[simp] theorem State.setPc_pc (n : Nat) : (s.setPc n).pc = n := rfl
@[simp] theorem State.setPc_sp (n : Nat) : (s.setPc n).sp = s.sp := rfl
@[simp] theorem State.setPc_fl (n : Nat) : (s.setPc n).fl = s.fl := rfl
@[simp] theorem State.setPc_mem (n : Nat) : (s.setPc n).mem = s.mem := rfl
@[simp] theorem State.setPc_run (n : Nat) : (s.setPc n).run = s.run := rfl
@[simp] theorem State.setPc_out (n : Nat) : (s.setPc n).out = s.out := rfl
@[simp] theorem State.setPc_x (n : Nat) (q : RegIndex) : (s.setPc n).x q = s.x q := rfl
@[simp] theorem State.setPc_byteAt (n : Nat) (c : Nat) : (s.setPc n).byteAt c = s.byteAt c := rfl

@[simp] theorem State.setSp_regs (n : Nat) : (s.setSp n).regs = s.regs := rfl
@[simp] theorem State.setSp_pc (n : Nat) : (s.setSp n).pc = s.pc := rfl
@[simp] theorem State.setSp_sp (n : Nat) : (s.setSp n).sp = n := rfl
@[simp] theorem State.setSp_fl (n : Nat) : (s.setSp n).fl = s.fl := rfl
@[simp] theorem State.setSp_mem (n : Nat) : (s.setSp n).mem = s.mem := rfl
@[simp] theorem State.setSp_run (n : Nat) : (s.setSp n).run = s.run := rfl
@[simp] theorem State.setSp_out (n : Nat) : (s.setSp n).out = s.out := rfl
@[simp] theorem State.setSp_x (n : Nat) (q : RegIndex) : (s.setSp n).x q = s.x q := rfl
@[simp] theorem State.setSp_byteAt (n : Nat) (c : Nat) : (s.setSp n).byteAt c = s.byteAt c := rfl

@[simp] theorem State.setFl_regs (v : Byte) : (s.setFl v).regs = s.regs := rfl
@[simp] theorem State.setFl_pc (v : Byte) : (s.setFl v).pc = s.pc := rfl
@[simp] theorem State.setFl_sp (v : Byte) : (s.setFl v).sp = s.sp := rfl
@[simp] theorem State.setFl_fl (v : Byte) : (s.setFl v).fl = v := rfl
@[simp] theorem State.setFl_mem (v : Byte) : (s.setFl v).mem = s.mem := rfl
@[simp] theorem State.setFl_run (v : Byte) : (s.setFl v).run = s.run := rfl
@[simp] theorem State.setFl_out (v : Byte) : (s.setFl v).out = s.out := rfl
@[simp] theorem State.setFl_x (v : Byte) (q : RegIndex) : (s.setFl v).x q = s.x q := rfl
@[simp] theorem State.setFl_byteAt (v : Byte) (c : Nat) : (s.setFl v).byteAt c = s.byteAt c := rfl

@[simp] theorem State.setByte_regs (a : Nat) (v : Byte) : (s.setByte a v).regs = s.regs := rfl
@[simp] theorem State.setByte_pc (a : Nat) (v : Byte) : (s.setByte a v).pc = s.pc := rfl
@[simp] theorem State.setByte_sp (a : Nat) (v : Byte) : (s.setByte a v).sp = s.sp := rfl
@[simp] theorem State.setByte_fl (a : Nat) (v : Byte) : (s.setByte a v).fl = s.fl := rfl
@[simp] theorem State.setByte_mem (a : Nat) (v : Byte) : (s.setByte a v).mem = Memory.write s.mem a v := rfl
@[simp] theorem State.setByte_run (a : Nat) (v : Byte) : (s.setByte a v).run = s.run := rfl
@[simp] theorem State.setByte_out (a : Nat) (v : Byte) : (s.setByte a v).out = s.out := rfl
@[simp] theorem State.setByte_x (a : Nat) (v : Byte) (q : RegIndex) : (s.setByte a v).x q = s.x q := rfl

@[simp] theorem State.setRun_regs (r : Run) : (s.setRun r).regs = s.regs := rfl
@[simp] theorem State.setRun_pc (r : Run) : (s.setRun r).pc = s.pc := rfl
@[simp] theorem State.setRun_sp (r : Run) : (s.setRun r).sp = s.sp := rfl
@[simp] theorem State.setRun_fl (r : Run) : (s.setRun r).fl = s.fl := rfl
@[simp] theorem State.setRun_mem (r : Run) : (s.setRun r).mem = s.mem := rfl
@[simp] theorem State.setRun_run (r : Run) : (s.setRun r).run = r := rfl
@[simp] theorem State.setRun_out (r : Run) : (s.setRun r).out = s.out := rfl
@[simp] theorem State.setRun_x (r : Run) (q : RegIndex) : (s.setRun r).x q = s.x q := rfl
@[simp] theorem State.setRun_byteAt (r : Run) (c : Nat) : (s.setRun r).byteAt c = s.byteAt c := rfl

@[simp] theorem State.output_regs (v : Byte) : (s.output v).regs = s.regs := rfl
@[simp] theorem State.output_pc (v : Byte) : (s.output v).pc = s.pc := rfl
@[simp] theorem State.output_sp (v : Byte) : (s.output v).sp = s.sp := rfl
@[simp] theorem State.output_fl (v : Byte) : (s.output v).fl = s.fl := rfl
@[simp] theorem State.output_mem (v : Byte) : (s.output v).mem = s.mem := rfl
@[simp] theorem State.output_run (v : Byte) : (s.output v).run = s.run := rfl
@[simp] theorem State.output_out (v : Byte) : (s.output v).out = s.out ++ [v] := rfl
@[simp] theorem State.output_x (v : Byte) (q : RegIndex) : (s.output v).x q = s.x q := rfl
@[simp] theorem State.output_byteAt (v : Byte) (c : Nat) : (s.output v).byteAt c = s.byteAt c := rfl

@[simp] theorem State.setX_x_same (r : RegIndex) (v : Byte) : (s.setX r v).x r = v := by
  simp [State.x, State.setX]

@[simp] theorem State.setX_x_other (r q : RegIndex) (v : Byte) (h : q ≠ r) : (s.setX r v).x q = s.x q := by
  simp only [State.x, State.setX, Fin.getElem_fin]
  exact Vector.getElem_set_ne _ _ fun e => h (Fin.ext e.symm)

/-- Two states with the same register reads and the same other fields are the same state. -/
theorem State.ext_x {s t : State} (x : ∀ r, s.x r = t.x r) (pc : s.pc = t.pc) (sp : s.sp = t.sp)
    (fl : s.fl = t.fl) (mem : s.mem = t.mem) (run : s.run = t.run) (out : s.out = t.out) : s = t := by
  obtain ⟨_, _, _, _, _, _, _⟩ := s
  obtain ⟨_, _, _, _, _, _, _⟩ := t
  obtain rfl := pc; obtain rfl := sp; obtain rfl := fl; obtain rfl := mem; obtain rfl := run; obtain rfl := out
  congr 1
  exact Vector.ext fun i hi => x ⟨i, hi⟩

end Sys2Proof.Machine
end

