-- ==== Sys2Proof/Laws/Memory.lean ====
section
/-! SUPPORT. The laws of memory: a read after a write, and that every memory operation keeps the canonical
form. -/

namespace Sys2Proof.Machine

@[simp] theorem Memory.read_nil (a : Nat) : Memory.read [] a = 0 := rfl

theorem Memory.read_cons (c : Host.Cell) (m : Memory) (a : Nat) :
    Memory.read (c :: m) a = if c.1 = a then c.2 else Memory.read m a := rfl

/-- Reading past the entries of another address. -/
theorem Memory.read_filter (m : Memory) (a b : Nat) :
    Memory.read (m.filter (fun c => c.1 ≠ a)) b = if b = a then 0 else Memory.read m b := by
  induction m with
  | nil => simp
  | cons c m ih =>
    by_cases hc : c.1 = a
    · simp only [List.filter_cons, hc, ne_eq, not_true, decide_false, Bool.false_eq_true, if_false, ih,
        Memory.read_cons]
      grind
    · simp only [List.filter_cons, hc, ne_eq, not_false_eq_true, decide_true, if_true, ih, Memory.read_cons]
      grind

/-- Reading a memory with a cell inserted that it did not list. -/
theorem Memory.read_insert {m : Memory} {a : Nat} (v : Byte) (h : ∀ c ∈ m, c.1 ≠ a) (b : Nat) :
    Memory.read (Memory.insert m a v) b = if b = a then v else Memory.read m b := by
  induction m with
  | nil => simp only [Memory.insert, Memory.read_cons]; grind
  | cons c m ih =>
    have hc := h c (by simp)
    have ih := ih fun d hd => h d (by simp [hd])
    simp only [Memory.insert]
    split <;> simp only [Memory.read_cons, ih] <;> grind

/-- What a memory reads after a write, at every address. -/
theorem Memory.read_write (m : Memory) (a b : Nat) (v : Byte) :
    Memory.read (Memory.write m a v) b = if b = a then v else Memory.read m b := by
  simp only [Memory.write]
  split <;> rename_i hv
  · rw [Memory.read_filter, hv]
  · rw [Memory.read_insert _ (by simp), Memory.read_filter]
    split <;> rfl

theorem Memory.mem_insert {m : Memory} {a : Nat} {v : Byte} {c : Host.Cell} :
    c ∈ Memory.insert m a v ↔ c = (a, v) ∨ c ∈ m := by
  induction m with
  | nil => simp [Memory.insert]
  | cons d m ih =>
    simp only [Memory.insert]
    split
    · simp only [List.mem_cons]
    · simp only [List.mem_cons, ih]; tauto

/-- Inserting an address a rising list does not hold leaves it rising. -/
theorem Memory.insert_rising {m : Memory} (hm : m.Pairwise (fun c d => c.1 < d.1)) {a : Nat} (v : Byte)
    (h : ∀ c ∈ m, c.1 ≠ a) : (Memory.insert m a v).Pairwise (fun c d => c.1 < d.1) := by
  induction m with
  | nil => simp [Memory.insert]
  | cons c m ih =>
    rw [List.pairwise_cons] at hm
    have hc := h c (by simp)
    simp only [Memory.insert]
    split
    · rename_i hac
      refine List.pairwise_cons.2 ⟨fun d hd => ?_, List.pairwise_cons.2 hm⟩
      rcases List.mem_cons.1 hd with rfl | hd
      · exact hac
      · exact Nat.lt_trans hac (hm.1 d hd)
    · refine List.pairwise_cons.2 ⟨fun d hd => ?_, ih hm.2 fun d hd => h d (by simp [hd])⟩
      rcases Memory.mem_insert.1 hd with rfl | hd
      · show c.1 < a
        omega
      · exact hm.1 d hd

/-- Every write to a cell of the machine keeps the canonical form. -/
theorem Memory.write_wf {m : Memory} (hm : Memory.wf m) {a : Nat} (ha : a < 256) (v : Byte) :
    Memory.wf (Memory.write m a v) := by
  have kept : ∀ c ∈ m.filter (fun c => c.1 ≠ a), c.1 < 256 ∧ c.2 ≠ 0 :=
    fun c hc => hm.2 c (List.mem_filter.1 hc).1
  simp only [Memory.write]
  split <;> rename_i hv
  · exact ⟨hm.1.filter _, kept⟩
  · refine ⟨Memory.insert_rising (hm.1.filter _) v (by simp), fun c hc => ?_⟩
    rcases Memory.mem_insert.1 hc with rfl | hc
    · exact ⟨ha, hv⟩
    · exact kept c hc

theorem Memory.wf_reset : Memory.wf State.reset.mem := by decide

@[simp] theorem State.reset_byteAt (a : Nat) : State.reset.byteAt a = 0 := rfl

/-- What the cells of a state hold after a write. -/
theorem State.setByte_byteAt (s : State) (a b : Nat) (v : Byte) :
    (s.setByte a v).byteAt b = if b = a then v else s.byteAt b :=
  Memory.read_write s.mem a b v

@[simp] theorem State.setByte_byteAt_same (s : State) (a : Nat) (v : Byte) : (s.setByte a v).byteAt a = v := by
  rw [State.setByte_byteAt, if_pos rfl]

@[simp] theorem State.setByte_byteAt_other (s : State) {a b : Nat} (h : b ≠ a) (v : Byte) :
    (s.setByte a v).byteAt b = s.byteAt b := by
  rw [State.setByte_byteAt, if_neg h]

end Sys2Proof.Machine
end

