-- ==== Sys2Proof/Laws/Ops.lean ====
section
/-! SUPPORT. One lemma per shared operation, saying everything it can answer; the provers cite these and
unfold no operation. -/

namespace Sys2Proof.Machine

/-! ## Register operand bytes -/

@[simp] theorem regByte_toNat (r : RegIndex) : (regByte r).toNat = r.val := by
  have : r.val < 8 := r.isLt
  simp only [regByte, BitVec.toNat_ofNat]
  omega

/-- An operand byte names a register or is above 7. -/
theorem byte_cases (b : Byte) : (∃ r, b = regByte r) ∨ 8 ≤ b.toNat := by
  by_cases h : b.toNat < 8
  · exact .inl ⟨⟨b.toNat, h⟩, BitVec.eq_of_toNat_eq (by simp)⟩
  · exact .inr (by omega)

theorem regByte_injective {q r : RegIndex} : regByte q = regByte r ↔ q = r := by
  refine ⟨fun h => Fin.ext ?_, fun h => h ▸ rfl⟩
  simpa using congrArg BitVec.toNat h

@[simp] theorem regOperand_regByte (slot : OperandSlot) (r : RegIndex) :
    regOperand slot (regByte r) = .ok r := by
  simp [regOperand]

@[simp] theorem regOperand_bad (slot : OperandSlot) {b : Byte} (h : 8 ≤ b.toNat) :
    regOperand slot b = .error (.invalidRegister slot b) := by
  simp only [regOperand]
  exact dif_neg (Nat.not_lt.2 h)

@[simp] theorem wrap_toNat (v : Nat) : (wrap v).toNat = v % 256 := by
  simp [wrap]

/-! ## Memory accesses -/

theorem memRead_of_lt {a : Nat} (h : a < 256) (s : State) : memRead a s = .ok (s.byteAt a) := if_pos h

theorem memRead_of_ge {a : Nat} (h : 256 ≤ a) (s : State) : memRead a s = .error (.outOfBounds a) :=
  if_neg (Nat.not_lt.2 h)

/-- What a read can answer. -/
theorem memRead_cases (a : Nat) (s : State) :
    (a < 256 ∧ memRead a s = .ok (s.byteAt a)) ∨ (256 ≤ a ∧ memRead a s = .error (.outOfBounds a)) := by
  rcases Nat.lt_or_ge a 256 with h | h
  · exact .inl ⟨h, memRead_of_lt h s⟩
  · exact .inr ⟨h, memRead_of_ge h s⟩

theorem memWrite_of_lt {a : Nat} (h : a < 256) (v : Byte) (s : State) :
    memWrite a v s = .ok (s.setByte a v) := by
  simp only [memWrite, Int.toNat_natCast]
  exact if_pos ⟨by omega, by simpa using h⟩

theorem memWrite_out {a : Int} (h : a < 0 ∨ 256 ≤ a) (v : Byte) (s : State) :
    memWrite a v s = .error (.outOfBounds a) :=
  if_neg (by simp only [Config.memSize]; omega)

/-! ## The stack -/

theorem pushAddress_toNat (s : State) : (pushAddress s).toNat = s.sp - 1 := by
  simp only [pushAddress]; omega

theorem push_of_pos {s : State} (h1 : 1 ≤ s.sp) (h2 : s.sp ≤ 256) (v : Byte) :
    push v s = .ok ((s.setByte (s.sp - 1) v).setSp (s.sp - 1)) := by
  have ha : pushAddress s = ((s.sp - 1 : Nat) : Int) := by simp only [pushAddress]; omega
  simp only [push, ha, memWrite_of_lt (show s.sp - 1 < 256 by omega)]
  rfl

theorem push_of_zero {s : State} (h : s.sp = 0) (v : Byte) : push v s = .error (.outOfBounds (-1)) := by
  have ha : pushAddress s = -1 := by simp only [pushAddress]; omega
  simp only [push, ha, memWrite_out (show (-1 : Int) < 0 ∨ 256 ≤ (-1 : Int) by omega)]
  rfl

theorem push_of_gt {s : State} (h : 256 < s.sp) (v : Byte) :
    push v s = .error (.outOfBounds (pushAddress s)) := by
  have ha : pushAddress s < 0 ∨ 256 ≤ pushAddress s := by simp only [pushAddress]; omega
  simp only [push, memWrite_out ha]
  rfl

/-- What a push can answer. -/
theorem push_cases (v : Byte) (s : State) :
    (1 ≤ s.sp ∧ s.sp ≤ 256 ∧ push v s = .ok ((s.setByte (s.sp - 1) v).setSp (s.sp - 1))) ∨
      ((s.sp = 0 ∨ 256 < s.sp) ∧ push v s = .error (.outOfBounds (pushAddress s))) := by
  rcases Nat.eq_zero_or_pos s.sp with h0 | h1
  · refine .inr ⟨.inl h0, ?_⟩
    rw [push_of_zero h0]
    simp [pushAddress, h0]
  · rcases Nat.lt_or_ge 256 s.sp with h2 | h2
    · exact .inr ⟨.inr h2, push_of_gt h2 v⟩
    · exact .inl ⟨h1, h2, push_of_pos h1 h2 v⟩

theorem pop_of_le {s : State} (h : s.sp ≤ 255) : pop s = .ok (s.byteAt s.sp, s.setSp (s.sp + 1)) := by
  simp only [pop, memRead_of_lt (show s.sp < 256 by omega)]
  rfl

theorem pop_of_gt {s : State} (h : 255 < s.sp) : pop s = .error (.outOfBounds s.sp) := by
  simp only [pop, memRead_of_ge (show 256 ≤ s.sp by omega)]
  rfl

/-- What a pop can answer. -/
theorem pop_cases (s : State) :
    (s.sp ≤ 255 ∧ pop s = .ok (s.byteAt s.sp, s.setSp (s.sp + 1))) ∨
      (255 < s.sp ∧ pop s = .error (.outOfBounds s.sp)) := by
  rcases Nat.lt_or_ge 255 s.sp with h | h
  · exact .inr ⟨h, pop_of_gt h⟩
  · exact .inl ⟨h, pop_of_le h⟩

/-! ## Fetch -/

theorem fetch_of_le {s : State} (h : s.pc ≤ 253) : fetch s = .ok s.bytesAtPc := by
  simp only [fetch, memRead_of_lt (show s.pc < 256 by omega), memRead_of_lt (show s.pc + 1 < 256 by omega),
    memRead_of_lt (show s.pc + 2 < 256 by omega)]
  rfl

theorem fetch_of_top {s : State} (h1 : 254 ≤ s.pc) (h2 : s.pc ≤ 256) :
    fetch s = .error (.outOfBounds 256) := by
  obtain h | h | h : s.pc = 254 ∨ s.pc = 255 ∨ s.pc = 256 := by omega
  · simp only [fetch, h, memRead_of_lt (show 254 < 256 by omega), memRead_of_lt (show 254 + 1 < 256 by omega),
      memRead_of_ge (show 256 ≤ 254 + 2 by omega)]
    rfl
  · simp only [fetch, h, memRead_of_lt (show 255 < 256 by omega), memRead_of_ge (show 256 ≤ 255 + 1 by omega)]
    rfl
  · simp only [fetch, h, memRead_of_ge (show 256 ≤ 256 by omega)]
    rfl

theorem fetch_of_gt {s : State} (h : 256 < s.pc) : fetch s = .error (.outOfBounds s.pc) := by
  simp only [fetch, memRead_of_ge (show 256 ≤ s.pc by omega)]
  rfl

/-- What a fetch can answer. -/
theorem fetch_cases (s : State) :
    (s.pc ≤ 253 ∧ fetch s = .ok s.bytesAtPc) ∨ (254 ≤ s.pc ∧ ∃ e, fetch s = .error e) := by
  rcases Nat.lt_or_ge 253 s.pc with h | h
  · refine .inr ⟨h, ?_⟩
    rcases Nat.lt_or_ge 256 s.pc with h' | h'
    · exact ⟨_, fetch_of_gt h'⟩
    · exact ⟨_, fetch_of_top h h'⟩
  · exact .inl ⟨h, fetch_of_le h⟩

theorem fetchedByte?_eq (k : Nat) (s : State) :
    fetchedByte? k s = if s.pc + k < 256 then some (s.byteAt (s.pc + k)) else none := by
  rcases memRead_cases (s.pc + k) s with ⟨h, hr⟩ | ⟨h, hr⟩
  · rw [fetchedByte?, hr, if_pos h]; rfl
  · rw [fetchedByte?, hr, if_neg (by omega)]; rfl

/-! ## Exceptions and the end of a cycle -/

@[simp] theorem takeException_run (e : Exception) (s : State) :
    (takeException e s).run = .faulted (faultRecord e s) := rfl
@[simp] theorem takeException_pc (e : Exception) (s : State) : (takeException e s).pc = s.pc := rfl
@[simp] theorem takeException_sp (e : Exception) (s : State) : (takeException e s).sp = s.sp := rfl
@[simp] theorem takeException_fl (e : Exception) (s : State) : (takeException e s).fl = s.fl := rfl
@[simp] theorem takeException_mem (e : Exception) (s : State) : (takeException e s).mem = s.mem := rfl
@[simp] theorem takeException_regs (e : Exception) (s : State) : (takeException e s).regs = s.regs := rfl
@[simp] theorem takeException_out (e : Exception) (s : State) : (takeException e s).out = s.out := rfl
@[simp] theorem takeException_x (e : Exception) (s : State) (r : RegIndex) :
    (takeException e s).x r = s.x r := rfl
@[simp] theorem takeException_byteAt (e : Exception) (s : State) (a : Nat) :
    (takeException e s).byteAt a = s.byteAt a := rfl

@[simp] theorem endCycle_ok (s t : State) : endCycle s (.ok t) = .next t := rfl
@[simp] theorem endCycle_error (s : State) (e : Exception) :
    endCycle s (.error e) = .next (takeException e s) := rfl

/-- How a cycle can end: with the state its pseudocode reached, or with the exception it raised. -/
theorem endCycle_cases (s : State) (r : Except Exception State) :
    (∃ t, r = .ok t ∧ endCycle s r = .next t) ∨
      (∃ e, r = .error e ∧ endCycle s r = .next (takeException e s)) := by
  cases r with
  | ok t => exact .inl ⟨t, rfl, rfl⟩
  | error e => exact .inr ⟨e, rfl, rfl⟩

/-! ## The ALU -/

@[simp] theorem alu_add (a b : RegIndex) (s : State) : alu .add a b s = .ok (aluAdd a b s) := rfl
@[simp] theorem alu_cmp (a b : RegIndex) (s : State) : alu .cmp a b s = .ok (aluCmp a b s) := rfl

theorem alu_other {op : AluOp} (h1 : op ≠ .add) (h2 : op ≠ .cmp) (a b : RegIndex) (s : State) :
    alu op a b s = .error (.unsupportedOperation op) := by
  cases op <;> first | rfl | contradiction

/-- What a comparison can leave in `fl`. -/
theorem compareFlags_cases (a b : Byte) :
    (a = b ∧ compareFlags a b = 1) ∨ (b.toNat < a.toNat ∧ compareFlags a b = 2) ∨
      (a.toNat < b.toNat ∧ compareFlags a b = 4) := by
  simp only [compareFlags]
  rcases Nat.lt_trichotomy a.toNat b.toNat with h | h | h
  · exact .inr (.inr ⟨h, by rw [if_neg (by omega), if_neg (by omega)]⟩)
  · exact .inl ⟨BitVec.eq_of_toNat_eq h, if_pos h⟩
  · exact .inr (.inl ⟨h, by rw [if_neg (by omega), if_pos h]⟩)

/-! ## The step -/

theorem step_of_not_running {s : State} (h : s.run ≠ .running) : step s = .next s := by
  cases hr : s.run with
  | running => exact absurd hr h
  | loading => simp only [step, hr]
  | halted => simp only [step, hr]
  | faulted r => simp only [step, hr]

theorem step_of_fetch_error {s : State} {e : Exception} (h : s.run = .running) (hf : fetch s = .error e) :
    step s = .next (takeException e s) := by
  simp only [step, h, hf]; rfl

theorem step_of_decode_error {s : State} {d : DecodeError} (h : s.run = .running) (hpc : s.pc ≤ 253)
    (hd : decode s.bytesAtPc = .error d) : step s = .next (takeException (decodeException d) s) := by
  simp only [step, h, fetch_of_le hpc, hd]; rfl

end Sys2Proof.Machine
end

