-- ==== Sys2Proof/Laws/Decode.lean ====
section
/-! SUPPORT. What the opcode map and the register-field check can answer. -/

namespace Sys2Proof

/-- The map finds each row by its own byte, so no two rows share one. -/
@[simp] theorem Opcode.ofByte?_byte (op : Opcode) : Opcode.ofByte? op.byte = some op := by
  cases op <;> decide

/-- Whatever row the map finds has exactly that byte. -/
theorem Opcode.byte_of_ofByte? {b : Byte} {op : Opcode} (h : Opcode.ofByte? b = some op) : op.byte = b := by
  simpa using List.find?_some h

theorem Opcode.mem_all (op : Opcode) : op ∈ Opcode.all := by
  cases op <;> decide

/-- The bytes of the map are the 13 values of R54. -/
theorem Opcode.byte_mem (op : Opcode) : op.byte.toNat ∈ Machine.opcodeValues := by
  cases op <;> decide

/-- A value of R54 is some row's byte. -/
theorem Opcode.exists_byte {b : Byte} (h : b.toNat ∈ Machine.opcodeValues) : ∃ op : Opcode, op.byte = b := by
  have all : Machine.opcodeValues = Opcode.all.map fun op => op.byte.toNat := by decide
  rw [all] at h
  obtain ⟨op, -, hop⟩ := List.mem_map.1 h
  exact ⟨op, BitVec.eq_of_toNat_eq hop⟩

theorem registerField_of_lt {slot : OperandSlot} {b : Byte} (h : b.toNat < 8) :
    registerField slot b = .ok b := if_pos h

theorem registerField_of_ge {slot : OperandSlot} {b : Byte} (h : 8 ≤ b.toNat) :
    registerField slot b = .error (.invalidRegister slot b) := if_neg (Nat.not_lt.2 h)

/-- What the register-field check can answer. -/
theorem registerField_cases (slot : OperandSlot) (b : Byte) :
    (b.toNat < 8 ∧ registerField slot b = .ok b) ∨
      (8 ≤ b.toNat ∧ registerField slot b = .error (.invalidRegister slot b)) := by
  rcases Nat.lt_or_ge b.toNat 8 with h | h
  · exact .inl ⟨h, registerField_of_lt h⟩
  · exact .inr ⟨h, registerField_of_ge h⟩

/-- A fetch whose opcode byte is a row's byte decodes by that row. -/
theorem decode_of_byte (op : Opcode) (opa opb : Byte) :
    decode ⟨op.byte, opa, opb⟩ = decodeOperands ⟨op.byte, opa, opb⟩ op := by
  simp only [decode, Opcode.ofByte?_byte]

/-- What a decode can answer: an unknown opcode, or the operands of the one row with that byte. -/
theorem decode_cases (f : Fetched) :
    (f.ir.toNat ∉ Machine.opcodeValues ∧ decode f = .error (.unknownOpcode f.ir)) ∨
      ∃ op : Opcode, op.byte = f.ir ∧ decode f = decodeOperands f op := by
  cases h : Opcode.ofByte? f.ir with
  | none =>
    refine .inl ⟨fun hm => ?_, by simp only [decode, h]⟩
    obtain ⟨op, hop⟩ := Opcode.exists_byte hm
    rw [← hop, Opcode.ofByte?_byte] at h
    cases h
  | some op => exact .inr ⟨op, Opcode.byte_of_ofByte? h, by simp only [decode, h]⟩

/-- What decoding one register field can answer. -/
theorem decodeReg_cases (f : Fetched) (mk : Byte → Instr) :
    (f.opa.toNat < 8 ∧ decodeReg f mk = .ok (mk f.opa)) ∨
      (8 ≤ f.opa.toNat ∧ decodeReg f mk = .error (.invalidRegister .a f.opa)) := by
  rcases registerField_cases .a f.opa with ⟨h, hr⟩ | ⟨h, hr⟩
  · exact .inl ⟨h, by simp only [decodeReg, hr]; rfl⟩
  · exact .inr ⟨h, by simp only [decodeReg, hr]; rfl⟩

/-- What decoding two register fields can answer, byte 1 checked first. -/
theorem decodeRegReg_cases (f : Fetched) (mk : Byte → Byte → Instr) :
    (f.opa.toNat < 8 ∧ f.opb.toNat < 8 ∧ decodeRegReg f mk = .ok (mk f.opa f.opb)) ∨
      (8 ≤ f.opa.toNat ∧ decodeRegReg f mk = .error (.invalidRegister .a f.opa)) ∨
      (f.opa.toNat < 8 ∧ 8 ≤ f.opb.toNat ∧ decodeRegReg f mk = .error (.invalidRegister .b f.opb)) := by
  rcases registerField_cases .a f.opa with ⟨ha, hra⟩ | ⟨ha, hra⟩
  · rcases registerField_cases .b f.opb with ⟨hb, hrb⟩ | ⟨hb, hrb⟩
    · exact .inl ⟨ha, hb, by simp only [decodeRegReg, hra, hrb]; rfl⟩
    · exact .inr (.inr ⟨ha, hb, by simp only [decodeRegReg, hra, hrb]; rfl⟩)
  · exact .inr (.inl ⟨ha, by simp only [decodeRegReg, hra]; rfl⟩)

end Sys2Proof
end

