-- ==== Sys2Proof/Laws/Exec.lean ====
section
/-! SUPPORT. One spec lemma per meaning: its answer on legal register bytes, and on a bad one. -/

namespace Sys2Proof.Machine

variable (s : State) (r a b : RegIndex)

/-! ## Legal register bytes -/

@[simp] theorem execLdi_regByte (imm : Byte) :
    execLdi (regByte r) imm s = .next ((s.setX r imm).setPc (s.pc + 3)) := by
  simp [execLdi, bind, Except.bind, pure, Except.pure]

@[simp] theorem execPrn_regByte :
    execPrn (regByte r) s = .next ((s.output (s.x r)).setPc (s.pc + 2)) := by
  simp [execPrn, bind, Except.bind, pure, Except.pure]

@[simp] theorem execCmp_regByte :
    execCmp (regByte a) (regByte b) s = .next ((aluCmp a b s).setPc (s.pc + 3)) := by
  simp [execCmp, bind, Except.bind, pure, Except.pure]

@[simp] theorem execMul_regByte :
    execMul (regByte a) (regByte b) s =
      .next ((s.setX a (wrap ((s.x a).toNat * (s.x b).toNat))).setPc (s.pc + 3)) := by
  simp [execMul, bind, Except.bind, pure, Except.pure]

@[simp] theorem execDouble_regByte :
    execDouble (regByte r) s = .next ((s.setX r (wrap ((s.x r).toNat * 2))).setPc (s.pc + 3)) := by
  simp [execDouble, bind, Except.bind, pure, Except.pure]

@[simp] theorem execJmp_regByte : execJmp (regByte r) s = .next (s.setPc (s.x r).toNat) := by
  simp [execJmp, bind, Except.bind, pure, Except.pure]

@[simp] theorem execJeq_regByte :
    execJeq (regByte r) s = .next (s.setPc (if flagE s.fl then (s.x r).toNat else s.pc + 2)) := by
  simp [execJeq, bind, Except.bind, pure, Except.pure]

@[simp] theorem execJne_regByte :
    execJne (regByte r) s = .next (s.setPc (if flagE s.fl then s.pc + 2 else (s.x r).toNat)) := by
  simp [execJne, bind, Except.bind, pure, Except.pure]

/-- PUSH is its push, then the advance of `pc`. -/
theorem execPush_regByte :
    execPush (regByte r) s = endCycle s ((push (s.x r) s).map (·.setPc (s.pc + 2))) := by
  simp only [execPush, regOperand_regByte, bind, Except.bind]
  cases push (s.x r) s <;> rfl

/-- POP is its pop, then the register write and the advance of `pc`. -/
theorem execPop_regByte :
    execPop (regByte r) s = endCycle s ((pop s).map fun p => (p.2.setX r p.1).setPc (s.pc + 2)) := by
  simp only [execPop, regOperand_regByte, bind, Except.bind]
  cases pop s <;> rfl

/-- CALL is its push, then the jump. -/
theorem execCall_regByte :
    execCall (regByte r) s = endCycle s ((push (returnAddress s) s).map fun t => t.setPc (t.x r).toNat) := by
  simp only [execCall, regOperand_regByte, bind, Except.bind]
  cases push (returnAddress s) s <;> rfl

/-- RET is its pop, then the jump. -/
theorem execRet_eq : execRet s = endCycle s ((pop s).map fun p => p.2.setPc p.1.toNat) := by
  simp only [execRet, bind, Except.bind]
  cases pop s <;> rfl

@[simp] theorem execHlt_eq : execHlt s = .next (s.setRun .halted) := rfl

/-! ## A bad register byte, byte 1 before byte 2 -/

section
variable {s} {v : Byte} (h : 8 ≤ v.toNat)
include h

theorem execLdi_bad (imm : Byte) : execLdi v imm s = .next (takeException (.invalidRegister .a v) s) := by
  simp [execLdi, h, bind, Except.bind]

theorem execPrn_bad : execPrn v s = .next (takeException (.invalidRegister .a v) s) := by
  simp [execPrn, h, bind, Except.bind]

theorem execDouble_bad : execDouble v s = .next (takeException (.invalidRegister .a v) s) := by
  simp [execDouble, h, bind, Except.bind]

theorem execPush_bad : execPush v s = .next (takeException (.invalidRegister .a v) s) := by
  simp [execPush, h, bind, Except.bind]

theorem execPop_bad : execPop v s = .next (takeException (.invalidRegister .a v) s) := by
  simp [execPop, h, bind, Except.bind]

theorem execCall_bad : execCall v s = .next (takeException (.invalidRegister .a v) s) := by
  simp [execCall, h, bind, Except.bind]

theorem execJmp_bad : execJmp v s = .next (takeException (.invalidRegister .a v) s) := by
  simp [execJmp, h, bind, Except.bind]

theorem execJeq_bad : execJeq v s = .next (takeException (.invalidRegister .a v) s) := by
  simp [execJeq, h, bind, Except.bind]

theorem execJne_bad : execJne v s = .next (takeException (.invalidRegister .a v) s) := by
  simp [execJne, h, bind, Except.bind]

theorem execMul_bad_a (w : Byte) : execMul v w s = .next (takeException (.invalidRegister .a v) s) := by
  simp [execMul, h, bind, Except.bind]

theorem execMul_bad_b : execMul (regByte a) v s = .next (takeException (.invalidRegister .b v) s) := by
  simp [execMul, h, bind, Except.bind]

theorem execCmp_bad_a (w : Byte) : execCmp v w s = .next (takeException (.invalidRegister .a v) s) := by
  simp [execCmp, h, bind, Except.bind]

theorem execCmp_bad_b : execCmp (regByte a) v s = .next (takeException (.invalidRegister .b v) s) := by
  simp [execCmp, h, bind, Except.bind]

end

end Sys2Proof.Machine
end

