-- ==== Sys2Proof/Laws/PerInstr.lean ====
section
/-! SUPPORT. The statements made per instruction, one lemma per constructor of Instr.
EncodedLength: the encoding has the length of R50, which is one more than bits 7:6 of its opcode byte (R55,
R59), and its opcode byte is the value of R54. -/

namespace Sys2Proof.Laws.EncodedLength

/-- The encoding's length and opcode byte are those of the opcode map. -/
def Statement (i : Instr) : Prop :=
  (encode i).length = i.length ∧ i.length = 1 + i.opcode.byte.toNat / 64 ∧
    (encode i).head? = some (BitVec.ofNat 8 (Machine.tableValue i))

/-- Bits 7:6 of each opcode byte of the map count the bytes that follow it (R55). -/
theorem length_of_byte (op : Opcode) : op.format.length = 1 + op.byte.toNat / 64 := by
  cases op <;> decide

theorem hlt : Statement .hlt := ⟨rfl, length_of_byte _, rfl⟩
theorem ret : Statement .ret := ⟨rfl, length_of_byte _, rfl⟩
theorem push (reg : Byte) : Statement (.push reg) := ⟨rfl, length_of_byte _, rfl⟩
theorem pop (reg : Byte) : Statement (.pop reg) := ⟨rfl, length_of_byte _, rfl⟩
theorem prn (reg : Byte) : Statement (.prn reg) := ⟨rfl, length_of_byte _, rfl⟩
theorem call (reg : Byte) : Statement (.call reg) := ⟨rfl, length_of_byte _, rfl⟩
theorem jmp (reg : Byte) : Statement (.jmp reg) := ⟨rfl, length_of_byte _, rfl⟩
theorem jeq (reg : Byte) : Statement (.jeq reg) := ⟨rfl, length_of_byte _, rfl⟩
theorem jne (reg : Byte) : Statement (.jne reg) := ⟨rfl, length_of_byte _, rfl⟩
theorem ldi (reg imm : Byte) : Statement (.ldi reg imm) := ⟨rfl, length_of_byte _, rfl⟩
theorem double (reg pad : Byte) : Statement (.double reg pad) := ⟨rfl, length_of_byte _, rfl⟩
theorem mul (regA regB : Byte) : Statement (.mul regA regB) := ⟨rfl, length_of_byte _, rfl⟩
theorem cmp (regA regB : Byte) : Statement (.cmp regA regB) := ⟨rfl, length_of_byte _, rfl⟩

end Sys2Proof.Laws.EncodedLength
end

