-- ==== Sys2Proof/Tests/Slice0.lean ====
section
/-! SUPPORT. Tests: the smoke test of WellFormed, words written out from the spec's encodings, single steps
taken from the vectors of `95_test_vectors.md` (named in each comment), and, for every statement with
hypotheses, a state and operands that meet them. -/

namespace Sys2Proof.Tests

open Sys2Proof.Machine

/-- The machine right after `image` is loaded, moved to `pc`, `sp`, `fl`. -/
def machine (image : List Byte) (pc : Nat := 0) (sp : Nat := 244) (fl : Byte := 0) : State :=
  match load image State.reset with
  | .next t => ((t.setPc pc).setSp sp).setFl fl
  | .fault _ => State.reset
  | .refused _ => State.reset

/-- The machine with the bytes of one instruction placed at `pc`. -/
def placed (f : Fetched) (pc : Nat := 0) (sp : Nat := 244) (fl : Byte := 0) : State :=
  placeFetched f (((State.reset.setPc pc).setSp sp).setFl fl)

/-- The state after one step. -/
def after (s : State) : State :=
  match step s with
  | .next t => t
  | .fault _ => s
  | .refused _ => s

/-- The exception the step from `s` ends in, if any. -/
def cause? (s : State) : Option Exception :=
  match (after s).run with
  | .faulted record => some record.cause
  | .loading | .running | .halted => none

/-! ## WellFormed refuses an ill-formed term for each register position (R52) -/

theorem smoke_push : ¬ (Instr.push 8).WellFormed := by decide
theorem smoke_pop : ¬ (Instr.pop 255).WellFormed := by decide
theorem smoke_prn : ¬ (Instr.prn 9).WellFormed := by decide
theorem smoke_call : ¬ (Instr.call 8).WellFormed := by decide
theorem smoke_jmp : ¬ (Instr.jmp 8).WellFormed := by decide
theorem smoke_jeq : ¬ (Instr.jeq 9).WellFormed := by decide
theorem smoke_jne : ¬ (Instr.jne 8).WellFormed := by decide
theorem smoke_ldi : ¬ (Instr.ldi 8 1).WellFormed := by decide
theorem smoke_double : ¬ (Instr.double 8 0).WellFormed := by decide
theorem smoke_mul_a : ¬ (Instr.mul 8 1).WellFormed := by decide
theorem smoke_mul_b : ¬ (Instr.mul 1 8).WellFormed := by decide
theorem smoke_cmp_a : ¬ (Instr.cmp 9 0).WellFormed := by decide
theorem smoke_cmp_b : ¬ (Instr.cmp 0 8).WellFormed := by decide
/-- The immediate and DOUBLE's third byte are not checked (R52, R58). -/
theorem smoke_accepts : (Instr.ldi 7 255).WellFormed ∧ (Instr.double 0 255).WellFormed ∧
    Instr.hlt.WellFormed := by decide

/-! ## Decoding words written out from R54 and R51, every constructor -/

theorem test_decode_hlt : decode ⟨0b00000001, 0b11001000, 0b01100011⟩ = .ok .hlt := by decide
theorem test_decode_ret : decode ⟨0b00010001, 0b00000000, 0b00000000⟩ = .ok .ret := by decide
theorem test_decode_push : decode ⟨0b01000101, 0b00000110, 0b11111111⟩ = .ok (.push 6) := by decide
theorem test_decode_pop : decode ⟨0b01000110, 0b00000001, 0b00000000⟩ = .ok (.pop 1) := by decide
theorem test_decode_prn : decode ⟨0b01000111, 0b00000101, 0b00000000⟩ = .ok (.prn 5) := by decide
theorem test_decode_call : decode ⟨0b01010000, 0b00000011, 0b00000000⟩ = .ok (.call 3) := by decide
theorem test_decode_jmp : decode ⟨0b01010100, 0b00000010, 0b00000000⟩ = .ok (.jmp 2) := by decide
theorem test_decode_jeq : decode ⟨0b01010101, 0b00000100, 0b00000000⟩ = .ok (.jeq 4) := by decide
theorem test_decode_jne : decode ⟨0b01010110, 0b00000111, 0b00000000⟩ = .ok (.jne 7) := by decide
theorem test_decode_ldi : decode ⟨0b10000010, 0b00000001, 0b10000001⟩ = .ok (.ldi 1 129) := by decide
theorem test_decode_double : decode ⟨0b10100000, 0b00000010, 0b01000111⟩ = .ok (.double 2 71) := by decide
theorem test_decode_mul : decode ⟨0b10100010, 0b00000100, 0b00000001⟩ = .ok (.mul 4 1) := by decide
theorem test_decode_cmp : decode ⟨0b10100111, 0b00000001, 0b00000100⟩ = .ok (.cmp 1 4) := by decide
/-- V-DL8, V-DL6, V-DL7: unknown opcodes, 161 between DOUBLE and MUL among them. -/
theorem test_decode_unknown : decode ⟨161, 0, 0⟩ = .error (.unknownOpcode 161) ∧
    decode ⟨0, 0, 0⟩ = .error (.unknownOpcode 0) ∧
    decode ⟨255, 0, 0⟩ = .error (.unknownOpcode 255) := by decide
/-- V-L5, V-A8, V-A20: never masked; byte 2 of CMP checked, byte 2 of DOUBLE not. -/
theorem test_decode_register : decode ⟨130, 255, 1⟩ = .error (.invalidRegister .a 255) ∧
    decode ⟨167, 0, 8⟩ = .error (.invalidRegister .b 8) ∧
    decode ⟨160, 0, 255⟩ = .ok (.double 0 255) := by decide
/-- The encoding line of R90: `10000010 00000rrr iiiiiiii`. -/
theorem test_encode_ldi : encode (.ldi 5 170) = [0b10000010, 0b00000101, 0b10101010] := by decide
/-- Table words: byte 0 in bits 7..0, bits from `nbits` up read as 0. -/
theorem test_table_word : decodeTableWord 24 0x080082 = some (.ldi 0 8) ∧
    decodeTableWord 16 0xFF0345 = some (.push 3) ∧ decodeTableWord 8 0xFFFF11 = some .ret ∧
    decodeTableWord 8 0x00 = none := by decide

/-! ## Single steps, from the vectors of `95_test_vectors.md` -/

/-- V-DL2: HLT at 253, the highest executable address. -/
theorem test_hlt : (after (placed ⟨1, 0, 0⟩ 253)).run = .halted ∧
    (after (placed ⟨1, 0, 0⟩ 253)).pc = 253 := by decide
/-- V-CT18: RET with `sp = 255`. -/
theorem test_ret : (after ((placed ⟨17, 0, 0⟩ 16 255).setByte 255 30)).pc = 30 ∧
    (after ((placed ⟨17, 0, 0⟩ 16 255).setByte 255 30)).sp = 256 := by decide
/-- V-CT17. -/
theorem test_ret_top : cause? (placed ⟨17, 0, 0⟩ 16 256) = some (.outOfBounds 256) := by decide
/-- V-S6: PUSH with `sp = 256`. -/
theorem test_push : (after ((placed ⟨69, 0, 0⟩ 0 256).setX 0 9)).byteAt 255 = 9 ∧
    (after ((placed ⟨69, 0, 0⟩ 0 256).setX 0 9)).sp = 255 := by decide
/-- V-S5: PUSH with `sp = 0` faults at -1 and does not write cell 255. -/
theorem test_push_bottom : cause? ((placed ⟨69, 0, 0⟩ 0 0).setX 0 9) = some (.outOfBounds (-1)) ∧
    (after ((placed ⟨69, 0, 0⟩ 0 0).setX 0 9)).byteAt 255 = 0 := by decide
/-- V-S2: POP leaves the cell. -/
theorem test_pop : (after ((placed ⟨70, 1, 0⟩ 8 243).setByte 243 200)).x 1 = 200 ∧
    (after ((placed ⟨70, 1, 0⟩ 8 243).setByte 243 200)).byteAt 243 = 200 := by decide
/-- V-S9. -/
theorem test_pop_top : cause? (placed ⟨70, 2, 0⟩ 0 256) = some (.outOfBounds 256) := by decide
/-- V-L8: output is appended after what is there. -/
theorem test_prn : (after ((placed ⟨71, 5, 0⟩).output 72)).out = [72, 0] := by decide
/-- V-CT15: the largest return address. -/
theorem test_call : (after (placed ⟨80, 0, 0⟩ 253 200)).byteAt 199 = 255 ∧
    (after (placed ⟨80, 0, 0⟩ 253 200)).pc = 0 := by decide
/-- V-CT14. -/
theorem test_call_bottom : cause? ((placed ⟨80, 1, 0⟩ 6 0).setX 1 14) = some (.outOfBounds (-1)) := by decide
/-- V-CT3: a target is not validated when the jump executes. -/
theorem test_jmp : (after ((placed ⟨84, 0, 0⟩ 3).setX 0 254)).pc = 254 := by decide
/-- V-CT4 and V-CT5: taken on E only. -/
theorem test_jeq : (after ((placed ⟨85, 2, 0⟩ 10 244 1).setX 2 40)).pc = 40 ∧
    (after ((placed ⟨85, 2, 0⟩ 10 244 2).setX 2 40)).pc = 12 := by decide
/-- V-CT12: the register byte is checked although the branch is not taken. -/
theorem test_jeq_register : cause? (placed ⟨85, 9, 0⟩ 0 244 4) = some (.invalidRegister .a 9) := by decide
/-- V-CT8 and V-CT11: not taken on E, taken at the reset `fl`. -/
theorem test_jne : (after ((placed ⟨86, 2, 0⟩ 10 244 1).setX 2 40)).pc = 12 ∧
    (after ((placed ⟨86, 2, 0⟩ 10 244 0).setX 2 40)).pc = 40 := by decide
/-- V-L6: LDI at 253 leaves `pc = 256`. -/
theorem test_ldi : (after (placed ⟨130, 1, 7⟩ 253)).x 1 = 7 ∧ (after (placed ⟨130, 1, 7⟩ 253)).pc = 256 := by
  decide
/-- V-A19 and V-A22: the third byte is ignored, the top bit lost. -/
theorem test_double : (after ((placed ⟨160, 0, 71⟩ 3).setX 0 5)).x 0 = 10 ∧
    (after ((placed ⟨160, 0, 71⟩ 3).setX 0 5)).pc = 6 ∧
    (after ((placed ⟨160, 4, 0⟩).setX 4 255)).x 4 = 254 := by decide
/-- V-A10: 200 * 100 = 20000, kept modulo 256. -/
theorem test_mul : (after (((placed ⟨162, 0, 1⟩).setX 0 200).setX 1 100)).x 0 = 32 := by decide
/-- V-A14: source and destination the same register. -/
theorem test_mul_square : (after ((placed ⟨162, 2, 2⟩).setX 2 20)).x 2 = 144 := by decide
/-- V-A3 and V-A4: operand order, and 128 greater than 127. -/
theorem test_cmp : (after (((placed ⟨167, 1, 0⟩).setX 0 5).setX 1 3)).fl = 4 ∧
    (after (((placed ⟨167, 0, 1⟩).setX 0 128).setX 1 127)).fl = 2 := by decide
/-- V-A6: the old flags are cleared. -/
theorem test_cmp_same : (after ((placed ⟨167, 3, 3⟩ 0 244 4).setX 3 9)).fl = 1 := by decide
/-- V-A26: the ALU's ADD, reached directly. -/
theorem test_alu_add : (aluAdd 0 1 ((State.reset.setX 0 200).setX 1 100)).x 0 = 44 := by decide
/-- V-DL3: the record of a fetch fault at 254. -/
theorem test_fetch_record : (after ((machine [] 254).setByte 254 1)).run =
    .faulted ⟨.outOfBounds 256, 254, some 1, some 0, none⟩ := by decide
/-- V-DL10 and V-S10: fetch before decode, decode before the stack access. -/
theorem test_priority : cause? (machine [] 254) = some (.outOfBounds 256) ∧
    cause? (placed ⟨69, 9, 0⟩ 0 0) = some (.invalidRegister .a 9) := by decide
/-- V-S11: the byte just pushed is the next opcode. -/
theorem test_self_modify : fetch (after ((placed ⟨69, 0, 84⟩ 6 9).setX 0 1)) = .ok ⟨1, 0, 0⟩ := by decide
/-- The host's placement: the table word of HLT runs as the first instruction after reset. -/
theorem test_with_fetch_word : (after (State.reset.withFetchWord 8 1)).run = .halted ∧
    (after (State.reset.withFetchWord 24 0x080082)).x 0 = 8 := by decide

/-! ## Witnesses: a state and operands that meet each statement's hypotheses -/

theorem witness_loaded_program : (List.replicate 256 (7 : Byte)).length ≤ 256 ∧
    ([] : List Byte).length ≤ 256 := ⟨Nat.le_of_eq List.length_replicate, by decide⟩
theorem witness_refused_load : State.reset.run = .loading ∧ 256 < (List.replicate 257 (0 : Byte)).length ∧
    (machine [1]).run ≠ .loading := ⟨rfl, Nat.lt_of_lt_of_eq (by decide : 256 < 257) List.length_replicate.symm, by decide⟩
theorem witness_unwritten : load [1] State.reset = .next (machine [1]) ∧ ([1] : List Byte).length ≤ 1 ∧
    255 < 256 ∧ (machine [1] 253).run = .running ∧ (machine [1] 253).pc ≤ 253 ∧
    (machine [1] 253).byteAt (machine [1] 253).pc = 0 := ⟨rfl, by decide⟩
theorem witness_decode_of_encode : (Instr.mul 7 0).WellFormed ∧ Instr.ret.WellFormed := by decide
theorem witness_decoded_bytes : decode ⟨160, 7, 255⟩ = .ok (.double 7 255) := by decide
theorem witness_ill_formed : ¬ (Instr.push 8).WellFormed ∧ ¬ (Instr.cmp 7 255).WellFormed := by decide
theorem witness_opcode_byte : decode ⟨1, 9, 9⟩ = .ok .hlt ∧ 255 ∉ opcodeValues ∧ 167 ∈ opcodeValues := by
  decide
theorem witness_unused_bytes : decode ⟨17, 255, 255⟩ = .ok .ret ∧ Instr.ret.length = 1 ∧
    decode ⟨86, 7, 255⟩ = .ok (.jne 7) ∧ (Instr.jne 7).length = 2 ∧
    decode ⟨160, 7, 255⟩ = .ok (.double 7 255) := by decide
theorem witness_step_runs : (placed ⟨130, 1, 7⟩ 253).run = .running ∧ (placed ⟨130, 1, 7⟩ 253).pc ≤ 253 ∧
    decode (placed ⟨130, 1, 7⟩ 253).bytesAtPc = .ok (.ldi 1 7) := by decide
theorem witness_encoded_runs : (placed ⟨162, 7, 0⟩ 253).run = .running ∧ (placed ⟨162, 7, 0⟩ 253).pc ≤ 253 ∧
    (Instr.mul 7 0).WellFormed ∧ ∀ (k : Nat) (h : k < (encode (.mul 7 0)).length),
      (placed ⟨162, 7, 0⟩ 253).byteAt ((placed ⟨162, 7, 0⟩ 253).pc + k) = (encode (.mul 7 0))[k] := by decide
theorem witness_fetch_past_top : ∀ pc ∈ [254, 255, 256],
    (machine [1] pc).run = .running ∧ 254 ≤ (machine [1] pc).pc ∧ (machine [1] pc).pc ≤ 256 := by decide
theorem witness_unknown_opcode : (machine [] 253).run = .running ∧ (machine [] 253).pc ≤ 253 ∧
    ((machine [] 253).byteAt 253).toNat ∉ opcodeValues := by decide
/-- States that meet the invariant: any loaded machine with `pc`, `sp` in range and a legal `fl`. -/
theorem loaded_inv {s : State} (hpc : s.pc ≤ 256) (hsp : s.sp ≤ 256)
    (hfl : s.fl = 0 ∨ s.fl = 1 ∨ s.fl = 2 ∨ s.fl = 4) (hm : Memory.wf s.mem) (hr : s.run = .running) : s.Inv :=
  ⟨hpc, hsp, hfl, hm, fun record h => by rw [hr] at h; cases h⟩
/-- One state for each line of R117, and one that completes. -/
theorem witness_priority : ∀ p ∈ [(machine [] 256, some (Exception.outOfBounds 256)),
      (machine [] 253, some (.unknownOpcode 0)), (placed ⟨69, 8, 0⟩ 0 0, some (.invalidRegister .a 8)),
      (placed ⟨167, 7, 8⟩, some (.invalidRegister .b 8)), (placed ⟨80, 7, 0⟩ 253 0, some (.outOfBounds (-1))),
      (placed ⟨17, 0, 0⟩ 0 256, some (.outOfBounds 256)), (placed ⟨69, 7, 0⟩ 253 256, none)],
    p.1.Inv ∧ p.1.run = .running ∧ firstException p.1 = p.2 := by
  have facts : ∀ p ∈ [(machine [] 256, some (Exception.outOfBounds 256)),
      (machine [] 253, some (.unknownOpcode 0)), (placed ⟨69, 8, 0⟩ 0 0, some (.invalidRegister .a 8)),
      (placed ⟨167, 7, 8⟩, some (.invalidRegister .b 8)), (placed ⟨80, 7, 0⟩ 253 0, some (.outOfBounds (-1))),
      (placed ⟨17, 0, 0⟩ 0 256, some (.outOfBounds 256)), (placed ⟨69, 7, 0⟩ 253 256, none)],
      (p.1.pc ≤ 256 ∧ p.1.sp ≤ 256 ∧ p.1.fl = 0 ∧ Memory.wf p.1.mem) ∧ p.1.run = .running ∧
        firstException p.1 = p.2 := by decide
  intro p hp
  obtain ⟨⟨h1, h2, h3, h4⟩, h5, h6⟩ := facts p hp
  exact ⟨loaded_inv h1 h2 (.inl h3) h4 h5, h5, h6⟩
theorem witness_inert : State.reset.run ≠ .running ∧ (after (placed ⟨1, 0, 0⟩)).run ≠ .running ∧
    (after (machine [])).run ≠ .running := by decide
theorem witness_good_end : (placed ⟨1, 0, 0⟩ 253).run = .running ∧
    step (placed ⟨1, 0, 0⟩ 253) = .next (after (placed ⟨1, 0, 0⟩ 253)) ∧
    (after (placed ⟨1, 0, 0⟩ 253)).goodEnd := ⟨rfl, rfl, rfl⟩
theorem witness_precise_fault : (placed ⟨69, 0, 0⟩ 253 0).run = .running ∧
    step (placed ⟨69, 0, 0⟩ 253 0) = .next (after (placed ⟨69, 0, 0⟩ 253 0)) ∧
    (after (placed ⟨69, 0, 0⟩ 253 0)).run = .faulted ⟨.outOfBounds (-1), 253, some 69, some 0, some 0⟩ ∧
    (placed ⟨69, 0, 0⟩ 253 0).Inv :=
  ⟨rfl, rfl, by decide, loaded_inv (by decide) (by decide) (.inl rfl) (by decide) rfl⟩
/-- The record's clauses at the edge of fetch: `pc` 254 and 256, in states that meet the invariant. -/
theorem witness_precise_fetch_fault : ∀ pc ∈ [254, 256],
    (machine [] pc).Inv ∧ (machine [] pc).run = .running ∧
    step (machine [] pc) = .next (after (machine [] pc)) ∧ (after (machine [] pc)).badEnd := by
  have facts : ∀ pc ∈ [254, 256], (machine [] pc).pc ≤ 256 ∧
      (after (machine [] pc)).run = .faulted (faultRecord (.outOfBounds 256) (machine [] pc)) := by decide
  intro pc hpc
  exact ⟨loaded_inv (facts pc hpc).1 (by show (244 : Nat) ≤ 256; decide) (.inl rfl) Memory.wf_reset rfl, rfl,
    (by simp only [List.mem_cons, List.not_mem_nil, or_false] at hpc; rcases hpc with rfl | rfl <;> rfl),
    _, (facts pc hpc).2⟩
theorem witness_reachable_fault : Reachable (after (machine [])) ∧
    (after (machine [])).run = .faulted ⟨.unknownOpcode 0, 0, some 0, some 0, some 0⟩ :=
  ⟨.step _ _ (.load [] _ _ .reset rfl) rfl, by decide⟩
theorem witness_frozen_record :
    (after (machine [])).run = .faulted ⟨.unknownOpcode 0, 0, some 0, some 0, some 0⟩ ∧
    Host.Core.run core 3 (after (machine [])) = .next (after (machine [])) := ⟨by decide, rfl⟩
theorem witness_invalid_register :
    (Instr.jeq 8).registerOperands.find? (fun o => 8 ≤ o.2.toNat) = some (.a, 8) ∧
    (Instr.mul 7 255).registerOperands.find? (fun o => 8 ≤ o.2.toNat) = some (.b, 255) := by decide
theorem witness_alu_other : AluOp.mod ≠ .add ∧ AluOp.mod ≠ .cmp := by decide
/-- The cycle clauses of all 13 instruction statements, at `pc` 253, 254 and 255, with legal operand bytes
and with illegal ones in each position. -/
theorem witness_cycles : ∀ v ∈ opcodeValues, ∀ pc ∈ [253, 254, 255], ∀ operands ∈ [(7, 7), (8, 0), (7, 8)],
    let s := (((machine [] pc).setByte pc (BitVec.ofNat 8 v)).setByte (pc + 1) operands.1).setByte (pc + 2) operands.2
    s.run = .running ∧ (s.byteAt s.pc).toNat = v ∧ (s.pc ≤ 253 ∨ 254 ≤ s.pc ∧ s.pc ≤ 256) := by
  intro v hv pc hpc operands _
  have small : ∀ v ∈ opcodeValues, v < 256 := by decide
  have range : ∀ pc ∈ [253, 254, 255], pc ≤ 253 ∨ 254 ≤ pc ∧ pc ≤ 256 := by decide
  refine ⟨rfl, ?_, range pc hpc⟩
  rw [show (State.pc _) = pc from rfl, State.setByte_byteAt_other _ (by omega),
    State.setByte_byteAt_other _ (by omega), State.setByte_byteAt_same, BitVec.toNat_ofNat]
  exact Nat.mod_eq_of_lt (small v hv)
theorem witness_push_call : (1 ≤ (machine [] 0 1).sp ∧ (machine [] 0 1).sp ≤ 256) ∧
    (1 ≤ (machine [] 253 256).sp ∧ (machine [] 253 256).sp ≤ 256 ∧ (machine [] 253 256).pc ≤ 253) ∧
    (machine [] 0 0).sp = 0 := by decide
theorem witness_pop_ret : (machine [] 0 255).sp ≤ 255 ∧ (machine [] 0 0).sp ≤ 255 ∧
    (machine [] 0 256).sp = 256 := by decide
theorem witness_cmp : ((State.reset.setX 0 255).setX 1 254).x 1 < ((State.reset.setX 0 255).setX 1 254).x 0 ∧
    (State.reset.setX 0 1).x 1 < (State.reset.setX 0 1).x 0 ∧ State.reset.x 0 = State.reset.x 7 := by decide
theorem witness_branches : (machine [] 0 244 1).fl.getLsbD 0 = true ∧ (machine [] 0 244 6).fl.getLsbD 0 = false := by
  decide
theorem witness_flags :
    (step (placed ⟨167, 0, 1⟩ 253) = .next (after (placed ⟨167, 0, 1⟩ 253)) ∧
      (after (placed ⟨167, 0, 1⟩ 253)).fl ≠ (placed ⟨167, 0, 1⟩ 253).fl ∧
      (placed ⟨167, 0, 1⟩ 253).run = .running ∧ (placed ⟨167, 0, 1⟩ 253).byteAt 253 = 167 ∧
      (after (placed ⟨167, 0, 1⟩ 253)).run = .running) ∧
    (step (placed ⟨85, 0, 0⟩) = .next (after (placed ⟨85, 0, 0⟩)) ∧ flagE 6 = flagE (placed ⟨85, 0, 0⟩).fl) ∧
    (step (placed ⟨69, 0, 0⟩) = .next (after (placed ⟨69, 0, 0⟩)) ∧ (placed ⟨69, 0, 0⟩).byteAt 0 ≠ 85 ∧
      (placed ⟨69, 0, 0⟩).byteAt 0 ≠ 86) ∧
    alu .add 0 1 State.reset = .ok (aluAdd 0 1 State.reset) :=
  ⟨⟨rfl, by decide⟩, ⟨rfl, by decide⟩, ⟨rfl, by decide⟩, rfl⟩
/-- The register table: an untaken branch, the loader, and each writer (LDI, POP, DOUBLE, MUL), for a register
it neither reads nor writes and for one it writes without reading. -/
theorem witness_register_table : exec (.jeq 7) State.reset = .next (State.reset.setPc 2) ∧
    (∀ record, (State.reset.setPc 2).run ≠ .faulted record) ∧ regByte 6 ∉ writesRegisters (.jeq 7) ∧
    regByte 7 ∉ readsRegisters State.reset (.jeq 7) ∧ load [1] State.reset = .next (machine [1]) :=
  ⟨rfl, (fun _ h => nomatch h), by decide, by decide, rfl⟩
theorem witness_register_writers : ∀ i ∈ [Instr.ldi 7 255, .pop 7, .double 7 0, .mul 7 1],
    ∃ t, exec i (machine [] 0 255) = .next t ∧ (∀ record, t.run ≠ .faulted record) ∧
      regByte 0 ∉ writesRegisters i ∧ regByte 0 ∉ readsRegisters (machine [] 0 255) i ∧
      regByte 7 ∈ writesRegisters i := by
  intro i hi
  simp only [List.mem_cons, List.not_mem_nil, or_false] at hi
  rcases hi with rfl | rfl | rfl | rfl <;>
    exact ⟨_, rfl, (fun _ h => nomatch h), by decide, by decide, by decide⟩
theorem witness_register_written_unread : regByte 7 ∉ readsRegisters (machine []) (.ldi 7 255) ∧
    regByte 7 ∉ readsRegisters (machine []) (.pop 7) := by decide
theorem witness_register_readers : ∀ i ∈ [Instr.prn 7, .push 7, .call 7, .jmp 7, .jne 7, .cmp 7 0, .hlt, .ret],
    ∃ t, exec i (machine [] 0 255) = .next t ∧ (∀ record, t.run ≠ .faulted record) ∧
      regByte 1 ∉ writesRegisters i ∧ regByte 1 ∉ readsRegisters (machine [] 0 255) i := by
  intro i hi
  simp only [List.mem_cons, List.not_mem_nil, or_false] at hi
  rcases hi with rfl | rfl | rfl | rfl | rfl | rfl | rfl | rfl <;>
    exact ⟨_, rfl, (fun _ h => nomatch h), by decide, by decide⟩
theorem witness_output : step (placed ⟨71, 7, 0⟩ 253) = .next (after (placed ⟨71, 7, 0⟩ 253)) := rfl
theorem witness_memory_writers :
    (step ((placed ⟨69, 7, 0⟩ 253 256).setX 7 9) = .next (after ((placed ⟨69, 7, 0⟩ 253 256).setX 7 9)) ∧
      (after ((placed ⟨69, 7, 0⟩ 253 256).setX 7 9)).byteAt 255 ≠ ((placed ⟨69, 7, 0⟩ 253 256).setX 7 9).byteAt 255) ∧
    (step (placed ⟨80, 0, 0⟩ 5 1) = .next (after (placed ⟨80, 0, 0⟩ 5 1)) ∧
      (after (placed ⟨80, 0, 0⟩ 5 1)).byteAt 0 ≠ (placed ⟨80, 0, 0⟩ 5 1).byteAt 0) :=
  ⟨⟨rfl, by decide⟩, ⟨rfl, by decide⟩⟩
theorem witness_stack_pointer :
    (step (placed ⟨80, 0, 0⟩ 0 1) = .next (after (placed ⟨80, 0, 0⟩ 0 1)) ∧
      (after (placed ⟨80, 0, 0⟩ 0 1)).sp ≠ (placed ⟨80, 0, 0⟩ 0 1).sp) ∧
    (step (placed ⟨17, 0, 0⟩ 0 255) = .next (after (placed ⟨17, 0, 0⟩ 0 255)) ∧
      (after (placed ⟨17, 0, 0⟩ 0 255)).sp ≠ (placed ⟨17, 0, 0⟩ 0 255).sp) :=
  ⟨⟨rfl, by decide⟩, ⟨rfl, by decide⟩⟩
theorem witness_invariant_step : (placed ⟨130, 1, 7⟩ 253 256 4).Inv ∧
    step (placed ⟨130, 1, 7⟩ 253 256 4) = .next (after (placed ⟨130, 1, 7⟩ 253 256 4)) :=
  ⟨loaded_inv (by decide) (by decide) (by decide) (by decide) rfl, rfl⟩
theorem witness_invariant_load : State.reset.Inv ∧ load [1] State.reset = .next (machine [1]) :=
  ⟨⟨by decide, by decide, .inl rfl, by decide, fun record h => by cases h⟩, rfl⟩
theorem witness_reset_stack : (machine []).sp = State.reset.sp := by decide
theorem witness_push_pop : 1 ≤ (machine [] 0 1).sp ∧ (machine [] 0 1).sp ≤ 256 ∧
    1 ≤ (machine [] 0 256).sp ∧ (machine [] 0 256).sp ≤ 256 := by decide
/-- A CALL at 253 with the lowest `sp` that can push, and a later state with its stack balanced. -/
theorem witness_call_return : 1 ≤ (placed ⟨80, 1, 0⟩ 253 1).sp ∧ (placed ⟨80, 1, 0⟩ 253 1).sp ≤ 256 ∧
    (placed ⟨80, 1, 0⟩ 253 1).pc ≤ 253 ∧
    exec (.call (regByte 1)) (placed ⟨80, 1, 0⟩ 253 1) = .next (after (placed ⟨80, 1, 0⟩ 253 1)) ∧
    let t := after (placed ⟨80, 1, 0⟩ 253 1)
    let u := (t.setX 3 9).setPc 77
    u.sp = t.sp ∧ u.byteAt u.sp = t.byteAt t.sp :=
  ⟨by decide, by decide, by decide, rfl, by decide⟩
/-- A CMP of equal and of unequal registers, then both branches. -/
theorem witness_jeq_jne : ∀ a ∈ [(5 : Byte), 6],
    let s := (State.reset.setX 0 5).setX 1 a
    ∃ t u v, exec (.cmp (regByte 0) (regByte 1)) s = .next t ∧ exec (.jeq (regByte 7)) t = .next u ∧
      exec (.jne (regByte 7)) t = .next v :=
  fun _ _ => ⟨_, _, _, rfl, rfl, rfl⟩
theorem witness_stored_fetched : 1 ≤ ((placed ⟨69, 0, 84⟩ 6 9).setX 0 1).sp ∧
    ((placed ⟨69, 0, 84⟩ 6 9).setX 0 1).sp ≤ 256 ∧ (after ((placed ⟨69, 0, 84⟩ 6 9).setX 0 1)).pc ≤ 253 ∧
    (((after ((placed ⟨69, 0, 84⟩ 6 9).setX 0 1)).pc + (0 : Nat) : Int) =
      pushAddress ((placed ⟨69, 0, 84⟩ 6 9).setX 0 1)) ∧
    exec (.push (regByte 0)) ((placed ⟨69, 0, 84⟩ 6 9).setX 0 1) =
      .next (after ((placed ⟨69, 0, 84⟩ 6 9).setX 0 1)) :=
  ⟨by decide, by decide, by decide, by decide, rfl⟩
theorem witness_memory_bounds : (-1 : Int) < 0 ∧ 255 < (256 : Int) ∧ 255 ≤ 255 ∧ (0 : Nat) ≠ 255 := by decide
theorem witness_canonical : Memory.wf [(0, 1), (255, 2)] ∧
    Memory.wf (Memory.write (Memory.write [(255, 2)] 0 7) 0 1) ∧
    (∀ a, Memory.read [(0, 1), (255, 2)] a = Memory.read (Memory.write (Memory.write [(255, 2)] 0 7) 0 1) a) ∧
    255 < 256 := ⟨by decide, by decide, fun _ => rfl, by decide⟩

end Sys2Proof.Tests
end

/-! PROOF. R13: which general registers an instruction and the loader read and write. -/

namespace Sys2Proof.Machine

/-! ## A register write beside the other updates -/

section
variable (s : State) (q : RegIndex) (v : Byte)

@[simp] theorem State.setX_setX_same (w : Byte) : (s.setX q v).setX q w = s.setX q w := by
  simp [State.setX]

theorem State.setX_setX_comm {r : RegIndex} (w : Byte) (h : q ≠ r) :
    (s.setX q v).setX r w = (s.setX r w).setX q v := by
  simp only [State.setX, Vector.set_comm _ _ (Fin.val_ne_of_ne h)]

/-! Each other update commutes with a register write; the write is moved outward. -/

@[simp] theorem State.setX_setPc (n : Nat) : (s.setX q v).setPc n = (s.setPc n).setX q v := rfl
@[simp] theorem State.setX_setSp (n : Nat) : (s.setX q v).setSp n = (s.setSp n).setX q v := rfl
@[simp] theorem State.setX_setFl (w : Byte) : (s.setX q v).setFl w = (s.setFl w).setX q v := rfl
@[simp] theorem State.setX_setRun (r : Run) : (s.setX q v).setRun r = (s.setRun r).setX q v := rfl
@[simp] theorem State.setX_output (w : Byte) : (s.setX q v).output w = (s.output w).setX q v := rfl
@[simp] theorem State.setX_setByte (a : Nat) (w : Byte) :
    (s.setX q v).setByte a w = (s.setByte a w).setX q v := rfl

@[simp] theorem returnAddress_setX : returnAddress (s.setX q v) = returnAddress s := rfl

end

theorem regByte_notMem_singleton {q r : RegIndex} : regByte q ∉ [regByte r] ↔ q ≠ r := by
  simp [regByte_injective]

theorem regByte_notMem_pair {q a b : RegIndex} : regByte q ∉ [regByte a, regByte b] ↔ q ≠ a ∧ q ≠ b := by
  simp [regByte_injective]

/-! ## The completing cycles -/

/-- `Completes s i t`: executed in `s`, instruction `i` meets no exception and ends in `t`. One constructor
per row of R54, with the condition on `sp` where there is one. -/
inductive Completes (s : State) : Instr → State → Prop
  | hlt : Completes s .hlt (s.setRun .halted)
  | ret : s.sp ≤ 255 → Completes s .ret ((s.setSp (s.sp + 1)).setPc (s.byteAt s.sp).toNat)
  | push (r : RegIndex) : 1 ≤ s.sp → s.sp ≤ 256 → Completes s (.push (regByte r))
      (((s.setByte (s.sp - 1) (s.x r)).setSp (s.sp - 1)).setPc (s.pc + 2))
  | pop (r : RegIndex) : s.sp ≤ 255 → Completes s (.pop (regByte r))
      (((s.setSp (s.sp + 1)).setX r (s.byteAt s.sp)).setPc (s.pc + 2))
  | prn (r : RegIndex) : Completes s (.prn (regByte r)) ((s.output (s.x r)).setPc (s.pc + 2))
  | call (r : RegIndex) : 1 ≤ s.sp → s.sp ≤ 256 → Completes s (.call (regByte r))
      (((s.setByte (s.sp - 1) (returnAddress s)).setSp (s.sp - 1)).setPc (s.x r).toNat)
  | jmp (r : RegIndex) : Completes s (.jmp (regByte r)) (s.setPc (s.x r).toNat)
  | jeq (r : RegIndex) : Completes s (.jeq (regByte r))
      (s.setPc (if flagE s.fl then (s.x r).toNat else s.pc + 2))
  | jne (r : RegIndex) : Completes s (.jne (regByte r))
      (s.setPc (if flagE s.fl then s.pc + 2 else (s.x r).toNat))
  | ldi (r : RegIndex) (imm : Byte) : Completes s (.ldi (regByte r) imm)
      ((s.setX r imm).setPc (s.pc + 3))
  | double (r : RegIndex) (pad : Byte) : Completes s (.double (regByte r) pad)
      ((s.setX r (wrap ((s.x r).toNat * 2))).setPc (s.pc + 3))
  | mul (a b : RegIndex) : Completes s (.mul (regByte a) (regByte b))
      ((s.setX a (wrap ((s.x a).toNat * (s.x b).toNat))).setPc (s.pc + 3))
  | cmp (a b : RegIndex) : Completes s (.cmp (regByte a) (regByte b))
      ((aluCmp a b s).setPc (s.pc + 3))

/-- The completing cycles are the model's: `exec` answers their final state. -/
theorem Completes.exec_eq {s t : State} {i : Instr} (h : Completes s i t) : exec i s = .next t := by
  cases h with
  | hlt => exact execHlt_eq s
  | ret hsp => simp only [exec, execRet_eq, pop_of_le hsp, Except.map, endCycle_ok]
  | push r h1 h2 => simp only [exec, execPush_regByte, push_of_pos h1 h2, Except.map, endCycle_ok]
  | pop r hsp => simp only [exec, execPop_regByte, pop_of_le hsp, Except.map, endCycle_ok]
  | prn r => exact execPrn_regByte s r
  | call r h1 h2 =>
    simp only [exec, execCall_regByte, push_of_pos h1 h2, Except.map, endCycle_ok, State.setSp_x,
      State.setByte_x]
  | jmp r => exact execJmp_regByte s r
  | jeq r => exact execJeq_regByte s r
  | jne r => exact execJne_regByte s r
  | ldi r imm => exact execLdi_regByte s r imm
  | double r pad => exact execDouble_regByte s r
  | mul a b => exact execMul_regByte s a b
  | cmp a b => exact execCmp_regByte s a b

/-- What `exec` can answer: the instruction completes, or the cycle takes an exception. -/
theorem exec_cases (i : Instr) (s : State) :
    (∃ t, Completes s i t) ∨ ∃ e, exec i s = .next (takeException e s) := by
  cases i with
  | hlt => exact .inl ⟨_, .hlt⟩
  | ret =>
    rcases pop_cases s with ⟨hsp, -⟩ | ⟨-, hp⟩
    · exact .inl ⟨_, .ret hsp⟩
    · exact .inr ⟨_, by simp only [exec, execRet_eq, hp]; rfl⟩
  | push b =>
    rcases byte_cases b with ⟨r, rfl⟩ | hb
    · rcases push_cases (s.x r) s with ⟨h1, h2, -⟩ | ⟨-, hp⟩
      · exact .inl ⟨_, .push r h1 h2⟩
      · exact .inr ⟨_, by simp only [exec, execPush_regByte, hp]; rfl⟩
    · exact .inr ⟨_, execPush_bad hb⟩
  | pop b =>
    rcases byte_cases b with ⟨r, rfl⟩ | hb
    · rcases pop_cases s with ⟨hsp, -⟩ | ⟨-, hp⟩
      · exact .inl ⟨_, .pop r hsp⟩
      · exact .inr ⟨_, by simp only [exec, execPop_regByte, hp]; rfl⟩
    · exact .inr ⟨_, execPop_bad hb⟩
  | call b =>
    rcases byte_cases b with ⟨r, rfl⟩ | hb
    · rcases push_cases (returnAddress s) s with ⟨h1, h2, -⟩ | ⟨-, hp⟩
      · exact .inl ⟨_, .call r h1 h2⟩
      · exact .inr ⟨_, by simp only [exec, execCall_regByte, hp]; rfl⟩
    · exact .inr ⟨_, execCall_bad hb⟩
  | prn b =>
    rcases byte_cases b with ⟨r, rfl⟩ | hb
    · exact .inl ⟨_, .prn r⟩
    · exact .inr ⟨_, execPrn_bad hb⟩
  | jmp b =>
    rcases byte_cases b with ⟨r, rfl⟩ | hb
    · exact .inl ⟨_, .jmp r⟩
    · exact .inr ⟨_, execJmp_bad hb⟩
  | jeq b =>
    rcases byte_cases b with ⟨r, rfl⟩ | hb
    · exact .inl ⟨_, .jeq r⟩
    · exact .inr ⟨_, execJeq_bad hb⟩
  | jne b =>
    rcases byte_cases b with ⟨r, rfl⟩ | hb
    · exact .inl ⟨_, .jne r⟩
    · exact .inr ⟨_, execJne_bad hb⟩
  | ldi b imm =>
    rcases byte_cases b with ⟨r, rfl⟩ | hb
    · exact .inl ⟨_, .ldi r imm⟩
    · exact .inr ⟨_, execLdi_bad hb imm⟩
  | double b pad =>
    rcases byte_cases b with ⟨r, rfl⟩ | hb
    · exact .inl ⟨_, .double r pad⟩
    · exact .inr ⟨_, execDouble_bad hb⟩
  | mul x y =>
    rcases byte_cases x with ⟨a, rfl⟩ | hx
    · rcases byte_cases y with ⟨b, rfl⟩ | hy
      · exact .inl ⟨_, .mul a b⟩
      · exact .inr ⟨_, execMul_bad_b a hy⟩
    · exact .inr ⟨_, execMul_bad_a hx y⟩
  | cmp x y =>
    rcases byte_cases x with ⟨a, rfl⟩ | hx
    · rcases byte_cases y with ⟨b, rfl⟩ | hy
      · exact .inl ⟨_, .cmp a b⟩
      · exact .inr ⟨_, execCmp_bad_b a hy⟩
    · exact .inr ⟨_, execCmp_bad_a hx y⟩

/-- An answer of `exec` that is not Faulted is that of a completing cycle. -/
theorem completes_of_exec {i : Instr} {s t : State} (h : exec i s = .next t)
    (hrun : ∀ record, t.run ≠ .faulted record) : Completes s i t := by
  rcases exec_cases i s with ⟨u, hu⟩ | ⟨e, he⟩
  · obtain rfl : u = t := Host.Outcome.next.inj (hu.exec_eq.symm.trans h)
    exact hu
  · obtain rfl : takeException e s = t := Host.Outcome.next.inj (he.symm.trans h)
    exact absurd rfl (hrun _)

/-! ## R13 for a completing cycle -/

/-- R13's "writes" column. -/
theorem Completes.x_of_not_written {i : Instr} {s t : State} (h : Completes s i t) {q : RegIndex}
    (hq : regByte q ∉ writesRegisters i) : t.x q = s.x q := by
  cases h with
  | pop r _ | ldi r _ | double r _ | mul r _ =>
    have hqr : q ≠ r := regByte_notMem_singleton.1 hq
    simp [hqr]
  | hlt | ret _ | push _ _ _ | prn _ | call _ _ _ | jmp _ | jeq _ | jne _ | cmp _ _ => rfl

/-- R13's "reads" column: the cycle does not depend on a register it does not read, which is lost if written
and kept if not. -/
theorem Completes.setX_of_not_read {i : Instr} {s t : State} (h : Completes s i t) {q : RegIndex}
    (v : Byte) (hq : regByte q ∉ readsRegisters s i) :
    Completes (s.setX q v) i (if regByte q ∈ writesRegisters i then t else t.setX q v) := by
  cases h with
  | hlt => simpa [writesRegisters] using Completes.hlt (s := s.setX q v)
  | ret hsp => simpa [writesRegisters] using Completes.ret (s := s.setX q v) hsp
  | push r h1 h2 =>
    have hrq : r ≠ q := (regByte_notMem_singleton.1 hq).symm
    simpa [writesRegisters, hrq] using Completes.push (s := s.setX q v) r h1 h2
  | prn r =>
    have hrq : r ≠ q := (regByte_notMem_singleton.1 hq).symm
    simpa [writesRegisters, hrq] using Completes.prn (s := s.setX q v) r
  | call r h1 h2 =>
    have hrq : r ≠ q := (regByte_notMem_singleton.1 hq).symm
    simpa [writesRegisters, hrq] using Completes.call (s := s.setX q v) r h1 h2
  | jmp r =>
    have hrq : r ≠ q := (regByte_notMem_singleton.1 hq).symm
    simpa [writesRegisters, hrq] using Completes.jmp (s := s.setX q v) r
  | jeq r =>
    cases hE : flagE s.fl with
    | true =>
      have hrq : r ≠ q := by simpa [readsRegisters, hE, regByte_injective, eq_comm] using hq
      simpa [writesRegisters, hE, hrq] using Completes.jeq (s := s.setX q v) r
    | false => simpa [writesRegisters, hE] using Completes.jeq (s := s.setX q v) r
  | jne r =>
    cases hE : flagE s.fl with
    | true => simpa [writesRegisters, hE] using Completes.jne (s := s.setX q v) r
    | false =>
      have hrq : r ≠ q := by simpa [readsRegisters, hE, regByte_injective, eq_comm] using hq
      simpa [writesRegisters, hE, hrq] using Completes.jne (s := s.setX q v) r
  | pop r hsp =>
    by_cases hqr : q = r
    · subst hqr
      simpa [writesRegisters] using Completes.pop (s := s.setX q v) q hsp
    · simpa [writesRegisters, regByte_injective, hqr, State.setX_setX_comm _ _ _ _ hqr]
        using Completes.pop (s := s.setX q v) r hsp
  | ldi r imm =>
    by_cases hqr : q = r
    · subst hqr
      simpa [writesRegisters] using Completes.ldi (s := s.setX q v) q imm
    · simpa [writesRegisters, regByte_injective, hqr, State.setX_setX_comm _ _ _ _ hqr]
        using Completes.ldi (s := s.setX q v) r imm
  | double r pad =>
    have hqr : q ≠ r := regByte_notMem_singleton.1 hq
    simpa [writesRegisters, regByte_injective, hqr, hqr.symm, State.setX_setX_comm _ _ _ _ hqr]
      using Completes.double (s := s.setX q v) r pad
  | mul a b =>
    obtain ⟨hqa, hqb⟩ := regByte_notMem_pair.1 hq
    simpa [writesRegisters, regByte_injective, hqa, hqa.symm, hqb.symm, State.setX_setX_comm _ _ _ _ hqa]
      using Completes.mul (s := s.setX q v) a b
  | cmp a b =>
    obtain ⟨hqa, hqb⟩ := regByte_notMem_pair.1 hq
    simpa [writesRegisters, aluCmp, hqa.symm, hqb.symm] using Completes.cmp (s := s.setX q v) a b

/-! ## The loader -/

theorem memWrite_eq_ok {a : Int} {v : Byte} {s t : State} (h : memWrite a v s = .ok t) :
    t = s.setByte a.toNat v := by
  simp only [memWrite] at h
  split at h
  · exact (Except.ok.inj h).symm
  · cases h

/-- Writing an image leaves everything but memory unchanged. -/
theorem loadBytes_frame {image : List Byte} {a : Nat} {s t : State} (h : loadBytes a image s = .ok t) :
    t = { s with mem := t.mem } := by
  induction image generalizing a s with
  | nil => cases h; rfl
  | cons v rest ih =>
    cases hw : memWrite a v s with
    | error e => simp [loadBytes, hw, bind, Except.bind] at h
    | ok u =>
      have hrest : loadBytes (a + 1) rest u = .ok t := by
        simpa [loadBytes, hw, bind, Except.bind] using h
      rw [memWrite_eq_ok hw] at hrest
      exact (ih hrest).trans rfl

/-- A load that succeeds starts in Loading, writes the image from address 0 and leaves Running. -/
theorem load_eq_next {image : List Byte} {s t : State} (h : load image s = .next t) :
    s.run = .loading ∧ ∃ u, loadBytes 0 image s = .ok u ∧ t = u.setRun .running := by
  cases hrun : s.run with
  | loading =>
    cases hu : loadBytes 0 image s with
    | ok u => exact ⟨rfl, u, rfl, by simpa [load, hrun, hu, eq_comm] using h⟩
    | error e => simp [load, hrun, hu] at h
  | running | halted | faulted _ => simp [load, hrun] at h

/-- "The loader does not touch the registers" (R13). -/
theorem load_x {image : List Byte} {s t : State} (h : load image s = .next t) (q : RegIndex) :
    t.x q = s.x q := by
  obtain ⟨-, u, hu, rfl⟩ := load_eq_next h
  exact congrArg (·.x q) (loadBytes_frame hu)

/-- Settles O38: an execution that is not Faulted is a completing cycle, and each of those keeps to R13's two
columns; a load writes memory and `run` only. -/
theorem registersAreReadAndWrittenAsTheTableSays :
    Obligations.RegistersAreReadAndWrittenAsTheTableSays := by
  refine ⟨fun i s t h hrun => ?_, fun image s t h q => load_x h q⟩
  have hc : Completes s i t := completes_of_exec h hrun
  exact ⟨fun q hq => hc.x_of_not_written hq, fun q v hq => (hc.setX_of_not_read v hq).exec_eq⟩

end Sys2Proof.Machine

/-! PROOF. R44: what an unwritten cell reads after a load, and that its value is no instruction. -/

namespace Sys2Proof.Machine

/-! ## What a load leaves in memory -/

/-- An image that was written has its first byte in the first cell, and the rest from the next cell on. -/
theorem loadBytes_cons_eq_ok {v : Byte} {rest : List Byte} {a : Nat} {s t : State}
    (h : loadBytes a (v :: rest) s = .ok t) : loadBytes (a + 1) rest (s.setByte a v) = .ok t := by
  cases hw : memWrite a v s with
  | error e => simp [loadBytes, hw, bind, Except.bind] at h
  | ok u =>
    obtain rfl : u = s.setByte a v := memWrite_eq_ok hw
    simpa [loadBytes, hw, bind, Except.bind] using h

/-- Writing an image at `a` puts its bytes at `a` and upward, in order, and keeps every other cell. -/
theorem loadBytes_byteAt {image : List Byte} {a : Nat} {s t : State} (h : loadBytes a image s = .ok t)
    (b : Nat) : t.byteAt b = if b < a then s.byteAt b else image.getD (b - a) (s.byteAt b) := by
  induction image generalizing a s with
  | nil => cases h; simp
  | cons v rest ih =>
    rw [ih (loadBytes_cons_eq_ok h)]
    rcases Nat.lt_trichotomy b a with hlt | rfl | hgt
    · rw [if_pos (by omega), if_pos hlt, State.setByte_byteAt_other s (by omega)]
    · simp
    · obtain ⟨k, rfl⟩ : ∃ k, b = a + 1 + k := ⟨b - (a + 1), by omega⟩
      rw [if_neg (by omega), if_neg (by omega), State.setByte_byteAt_other s (by omega),
        show a + 1 + k - (a + 1) = k by omega, show a + 1 + k - a = k + 1 by omega, List.getD_cons_succ]

/-- After a load each cell holds its byte of the image, and beyond the image what it held before (R43). -/
theorem load_byteAt {image : List Byte} {s t : State} (h : load image s = .next t) (b : Nat) :
    t.byteAt b = image.getD b (s.byteAt b) := by
  obtain ⟨-, u, hu, rfl⟩ := load_eq_next h
  simpa using loadBytes_byteAt hu b

/-! ## Executing a byte that is no opcode -/

/-- A Running cycle that fetches a byte outside the opcode map raises UnknownOpcode with it (R114). -/
theorem step_of_unknownOpcode {s : State} (hrun : s.run = .running) (hpc : s.pc ≤ 253)
    (hir : (s.byteAt s.pc).toNat ∉ opcodeValues) :
    step s = .next (takeException (.unknownOpcode (s.byteAt s.pc)) s) := by
  rcases decode_cases s.bytesAtPc with ⟨-, hd⟩ | ⟨op, hop, -⟩
  · exact step_of_decode_error hrun hpc hd
  · have hbyte : op.byte = s.byteAt s.pc := hop
    exact absurd (hbyte ▸ op.byte_mem) hir

/-- Settles O4: memory reads zero at reset and, past the image, still after a load; and 0x00 is outside the
opcode map, so a cycle that fetches it raises UnknownOpcode. -/
theorem unwrittenMemoryReadsZeroAndIsNoInstruction :
    Obligations.UnwrittenMemoryReadsZeroAndIsNoInstruction := by
  refine ⟨fun a ha => ?atReset, fun image t a hload hlen ha => ?afterLoad, fun s hrun hpc hzero => ?executed⟩
  case atReset => rw [memRead_of_lt ha, State.reset_byteAt]
  case afterLoad =>
    rw [memRead_of_lt ha, load_byteAt hload, List.getD_eq_default _ _ hlen, State.reset_byteAt]
  case executed =>
    have hir : (s.byteAt s.pc).toNat ∉ opcodeValues := by rw [hzero]; decide
    rw [step_of_unknownOpcode hrun hpc hir, hzero]

end Sys2Proof.Machine

/-! PROOF. R56: the opcode byte alone, all eight bits of it, selects the instruction. -/

namespace Sys2Proof

theorem Opcode.byte_injective {o p : Opcode} (h : o.byte = p.byte) : o = p := by
  have hfind : Opcode.ofByte? o.byte = Opcode.ofByte? p.byte := congrArg _ h
  simpa using hfind

/-- R54's value of an instruction is the opcode byte of its row. -/
theorem tableValue_eq (i : Instr) : Machine.tableValue i = i.opcode.byte.toNat := by
  cases i <;> rfl

/-! ## What the operands of a matched row can answer -/

/-- An answer a row of the opcode map can give: an instruction of that row, or a bad register byte. -/
def Opcode.Answers (op : Opcode) (r : Except DecodeError Instr) : Prop :=
  (∃ i, r = .ok i ∧ i.opcode = op) ∨ ∃ slot v, r = .error (.invalidRegister slot v)

theorem decodeReg_answers (f : Fetched) {mk : Byte → Instr} {op : Opcode} (hmk : ∀ r, (mk r).opcode = op) :
    op.Answers (decodeReg f mk) := by
  rcases decodeReg_cases f mk with ⟨-, h⟩ | ⟨-, h⟩
  · exact .inl ⟨_, h, hmk _⟩
  · exact .inr ⟨_, _, h⟩

theorem decodeRegReg_answers (f : Fetched) {mk : Byte → Byte → Instr} {op : Opcode}
    (hmk : ∀ a b, (mk a b).opcode = op) : op.Answers (decodeRegReg f mk) := by
  rcases decodeRegReg_cases f mk with ⟨-, -, h⟩ | ⟨-, h⟩ | ⟨-, -, h⟩
  · exact .inl ⟨_, h, hmk _ _⟩
  · exact .inr ⟨_, _, h⟩
  · exact .inr ⟨_, _, h⟩

/-- The operand bytes decide between an instruction of the row and a bad register, never the row. -/
theorem decodeOperands_answers (f : Fetched) (op : Opcode) : op.Answers (decodeOperands f op) := by
  cases op with
  | hlt | ret => exact .inl ⟨_, rfl, rfl⟩
  | push | pop | prn | call | jmp | jeq | jne | ldi | double => exact decodeReg_answers f fun _ => rfl
  | mul | cmp => exact decodeRegReg_answers f fun _ _ => rfl

/-! ## What selects the instruction -/

/-- A decode rejects the opcode byte exactly when it is none of the 13 values (R56, R57). -/
theorem decode_eq_unknownOpcode_iff (f : Fetched) :
    decode f = .error (.unknownOpcode f.ir) ↔ f.ir.toNat ∉ Machine.opcodeValues := by
  rcases decode_cases f with ⟨hir, hd⟩ | ⟨op, hop, hd⟩
  · exact iff_of_true hd hir
  · have hknown : f.ir.toNat ∈ Machine.opcodeValues := hop ▸ op.byte_mem
    refine iff_of_false (fun hu => ?_) (not_not_intro hknown)
    rcases decodeOperands_answers f op with ⟨i, hi, -⟩ | ⟨slot, v, hv⟩
    · cases hu.symm.trans (hd.trans hi)
    · cases hu.symm.trans (hd.trans hv)

/-- A decoded instruction is of the row with the fetched opcode byte. -/
theorem opcode_byte_of_decode {f : Fetched} {i : Instr} (h : decode f = .ok i) : i.opcode.byte = f.ir := by
  rcases decode_cases f with ⟨-, hd⟩ | ⟨op, hop, hd⟩
  · cases h.symm.trans hd
  · rcases decodeOperands_answers f op with ⟨j, hj, hrow⟩ | ⟨slot, v, hv⟩
    · cases h.symm.trans (hd.trans hj)
      rw [hrow, hop]
    · cases h.symm.trans (hd.trans hv)

/-- Each value of R54 is the byte of a row. -/
theorem Opcode.exists_byte_eq_ofNat {v : Nat} (hv : v ∈ Machine.opcodeValues) :
    ∃ op : Opcode, op.byte = BitVec.ofNat 8 v := by
  have small : ∀ v ∈ Machine.opcodeValues, v < 2 ^ 8 := by decide
  refine Opcode.exists_byte ?_
  rwa [BitVec.toNat_ofNat, Nat.mod_eq_of_lt (small v hv)]

/-- Settles O8: the opcode byte is matched whole against the map, and whatever the operand bytes make of the
row it selects, they do not leave that row. -/
theorem opcodeByteAloneSelectsTheInstruction : Obligations.OpcodeByteAloneSelectsTheInstruction := by
  refine ⟨decode_eq_unknownOpcode_iff, fun f i h => ?value, fun v hv => ?row⟩
  case value => rw [tableValue_eq, opcode_byte_of_decode h]
  case row =>
    obtain ⟨op, hop⟩ := Opcode.exists_byte_eq_ofNat hv
    refine ⟨op, hop ▸ op.ofByte?_byte, fun opa opb i h => Opcode.byte_injective ?_⟩
    rw [opcode_byte_of_decode h, hop]

end Sys2Proof

/-! PROOF. R85: the cycle of an instruction with two register bytes, and the flags CMP leaves. -/

namespace Sys2Proof.Machine

/-! ## The cycle of an instruction with two register bytes -/

/-- A Running cycle executes the instruction its fetch decodes to (R70 to R73). -/
theorem step_of_decode_ok {s : State} {i : Instr} (hrun : s.run = .running) (hpc : s.pc ≤ 253)
    (hd : decode s.bytesAtPc = .ok i) : step s = exec i s := by
  simp only [step, hrun, fetch_of_le hpc, hd]

/-- The bytes at `pc` decode by the row whose byte is there. -/
theorem decode_bytesAtPc {s : State} {op : Opcode} (hir : (s.byteAt s.pc).toNat = op.byte.toNat) :
    decode s.bytesAtPc = decodeOperands s.bytesAtPc op := by
  have hbyte : s.byteAt s.pc = op.byte := BitVec.eq_of_toNat_eq hir
  rw [State.bytesAtPc, hbyte]
  exact decode_of_byte op _ _

/-- A row whose two operand bytes are register fields has the cycle of R70 with both checks of R72, byte 1
before byte 2. -/
theorem cycleOf_of_decodeRegReg {op : Opcode} {mk : Byte → Byte → Instr}
    (hop : ∀ f, decodeOperands f op = decodeRegReg f mk) : CycleOf op.byte.toNat true true mk := by
  refine fun s hrun hir => ⟨fun hlo hhi => step_of_fetch_error hrun (fetch_of_top hlo hhi), fun hpc => ?_⟩
  have hd : decode s.bytesAtPc = decodeRegReg s.bytesAtPc mk := (decode_bytesAtPc hir).trans (hop _)
  rcases decodeRegReg_cases s.bytesAtPc mk with ⟨ha, hb, h⟩ | ⟨ha, h⟩ | ⟨ha, hb, h⟩
  · rw [if_neg fun hbad => Nat.not_le.2 ha hbad.2, if_neg fun hbad => Nat.not_le.2 hb hbad.2]
    exact step_of_decode_ok hrun hpc (hd.trans h)
  · rw [if_pos ⟨rfl, ha⟩]
    exact step_of_decode_error hrun hpc (hd.trans h)
  · rw [if_neg fun hbad => Nat.not_le.2 ha hbad.2, if_pos ⟨rfl, hb⟩]
    exact step_of_decode_error hrun hpc (hd.trans h)

/-! ## The comparison -/

@[simp] theorem compareFlags_self (a : Byte) : compareFlags a a = 0b001 := if_pos rfl

theorem compareFlags_of_gt {a b : Byte} (h : b.toNat < a.toNat) : compareFlags a b = 0b010 := by
  rw [compareFlags, if_neg (by omega), if_pos h]

theorem compareFlags_of_lt {a b : Byte} (h : a.toNat < b.toNat) : compareFlags a b = 0b100 := by
  rw [compareFlags, if_neg (by omega), if_neg (by omega)]

@[simp] theorem aluCmp_fl (a b : RegIndex) (s : State) :
    (aluCmp a b s).fl = compareFlags (s.x a) (s.x b) := rfl

/-- Beside `pc`, a CMP changes nothing but `fl`. -/
theorem aluCmp_setPc_frame (a b : RegIndex) (s : State) (n : Nat) :
    Frame { fl := true } s ((aluCmp a b s).setPc n) where
  regs _ _ := rfl
  bytes _ _ := rfl
  sp _ := rfl
  fl h := nomatch h
  run _ := rfl
  out _ := rfl

/-- Settles O26: CMP's row has two register fields, its meaning completes on every pair of registers, and the
comparison's three cases give 1, 2 and 4. -/
theorem cmpSetsExactlyOneFlag : Obligations.CmpSetsExactlyOneFlag := by
  refine ⟨cycleOf_of_decodeRegReg (op := .cmp) fun _ => rfl, fun a b s => ?_⟩
  refine ⟨_, execCmp_regByte s a b, fun heq => ?equal, fun hgt => ?greater, fun hlt => ?less, fun hab => ?same,
    rfl, aluCmp_setPc_frame a b s _⟩
  case equal => rw [State.setPc_fl, aluCmp_fl, heq, compareFlags_self]
  case greater => rw [State.setPc_fl, aluCmp_fl, compareFlags_of_gt hgt]
  case less => rw [State.setPc_fl, aluCmp_fl, compareFlags_of_lt hlt]
  case same => rw [State.setPc_fl, aluCmp_fl, hab, compareFlags_self]

end Sys2Proof.Machine

/-! PROOF. R90 and R91: the cycle of an instruction with one register byte, what LDI loads and PRN emits. -/

namespace Sys2Proof.Machine

/-! ## The cycle of an instruction with one register byte -/

/-- A row whose only register field is byte 1 has the cycle of R70 with that one check of R72, whatever it
makes of byte 2. -/
theorem cycleOf_of_decodeReg {op : Opcode} {mk : Byte → Byte → Instr}
    (hop : ∀ f, decodeOperands f op = decodeReg f (mk · f.opb)) : CycleOf op.byte.toNat true false mk := by
  refine fun s hrun hir => ⟨fun hlo hhi => step_of_fetch_error hrun (fetch_of_top hlo hhi), fun hpc => ?_⟩
  have hd : decode s.bytesAtPc = decodeReg s.bytesAtPc (mk · s.bytesAtPc.opb) :=
    (decode_bytesAtPc hir).trans (hop _)
  rcases decodeReg_cases s.bytesAtPc (mk · s.bytesAtPc.opb) with ⟨ha, h⟩ | ⟨ha, h⟩
  · rw [if_neg fun hbad => Nat.not_le.2 ha hbad.2, if_neg fun hbad => nomatch hbad.1]
    exact step_of_decode_ok hrun hpc (hd.trans h)
  · rw [if_pos ⟨rfl, ha⟩]
    exact step_of_decode_error hrun hpc (hd.trans h)

/-! ## The frames of the two writes -/

/-- A frame says nothing of `pc`. -/
theorem Frame.setPc {k : Touched} {s t : State} (h : Frame k s t) (n : Nat) : Frame k s (t.setPc n) :=
  ⟨h.regs, h.bytes, h.sp, h.fl, h.run, h.out⟩

theorem setX_frame (s : State) (r : RegIndex) (v : Byte) : Frame { reg := some r } s (s.setX r v) where
  regs q hq := State.setX_x_other s r q v fun hqr => hq (congrArg some hqr.symm)
  bytes _ _ := rfl
  sp _ := rfl
  fl _ := rfl
  run _ := rfl
  out _ := rfl

theorem output_frame (s : State) (v : Byte) : Frame { out := true } s (s.output v) where
  regs _ _ := rfl
  bytes _ _ := rfl
  sp _ := rfl
  fl _ := rfl
  run _ := rfl
  out h := nomatch h

/-! ## LDI and PRN -/

/-- Settles O24: LDI's row has one register field and keeps byte 2 as its immediate, and its meaning is one
register write beside the advance of `pc`. -/
theorem ldiLoadsItsImmediate : Obligations.LdiLoadsItsImmediate := by
  refine ⟨cycleOf_of_decodeReg (op := .ldi) fun _ => rfl, fun r imm s => ?_⟩
  exact ⟨_, execLdi_regByte s r imm, State.setX_x_same s r imm, rfl, (setX_frame s r imm).setPc _⟩

/-- Settles O25: PRN's row has one register field and drops byte 2, and its meaning is one output beside the
advance of `pc`. -/
theorem prnAppendsTheRegisterToTheOutput : Obligations.PrnAppendsTheRegisterToTheOutput := by
  refine ⟨cycleOf_of_decodeReg (op := .prn) fun _ => rfl, fun r s => ?_⟩
  exact ⟨_, execPrn_regByte s r, rfl, rfl, (output_frame s (s.x r)).setPc _⟩

end Sys2Proof.Machine

/-! PROOF. R95: the stack discipline, of `push` and `pop` alone. -/

namespace Sys2Proof.Machine

/-! ## The frames of a pop and of a push -/

theorem setSp_frame (s : State) (n : Nat) : Frame { sp := true } s (s.setSp n) where
  regs _ _ := rfl
  bytes _ _ := rfl
  sp h := nomatch h
  fl _ := rfl
  run _ := rfl
  out _ := rfl

theorem setByte_setSp_frame (s : State) (a : Nat) (v : Byte) (n : Nat) :
    Frame { sp := true, cell := some a } s ((s.setByte a v).setSp n) where
  regs _ _ := rfl
  bytes _ hb := State.setByte_byteAt_other s (fun hba => hb (congrArg some hba.symm)) v
  sp h := nomatch h
  fl _ := rfl
  run _ := rfl
  out _ := rfl

/-! ## A pop undoes a push -/

/-- A pop answers the byte just pushed and moves `sp` back, with memory as the push left it. -/
theorem pop_of_push {s t : State} {v : Byte} (h : push v s = .ok t) : pop t = .ok (v, t.setSp s.sp) := by
  rcases push_cases v s with ⟨h1, h2, hp⟩ | ⟨-, hp⟩
  · obtain rfl : (s.setByte (s.sp - 1) v).setSp (s.sp - 1) = t := Except.ok.inj (hp.symm.trans h)
    have hread : ((s.setByte (s.sp - 1) v).setSp (s.sp - 1)).byteAt (s.sp - 1) = v :=
      State.setByte_byteAt_same s _ v
    rw [pop_of_le (show s.sp - 1 ≤ 255 by omega), State.setSp_sp, hread, Nat.sub_add_cancel h1]
  · cases hp.symm.trans h

/-- Settles O45: a push is one write below `sp` and a pop moves nothing but `sp`, so the cell pushed is the
cell popped and outlives the pop; at the reset value 0xF4 of `sp` neither is stopped. -/
theorem stackIsFullDescending : Obligations.StackIsFullDescending := by
  refine ⟨fun s v h1 h2 => ?push, fun s hsp => ?pop, fun s v hreset => ⟨rfl, ?firstPush, ?emptyPop⟩⟩
  case push =>
    have hp := push_of_pos h1 h2 v
    have hcell : (s.setByte (s.sp - 1) v).byteAt (s.sp - 1) = v := State.setByte_byteAt_same s _ v
    exact ⟨_, hp, rfl, hcell, rfl, setByte_setSp_frame s _ v _, _, pop_of_push hp, rfl, hcell⟩
  case pop => exact ⟨_, pop_of_le hsp, rfl, rfl, setSp_frame s _⟩
  case firstPush =>
    have hsp : s.sp = 0xF4 := hreset
    have hp := push_of_pos (s := s) (by omega) (by omega) v
    rw [hsp] at hp
    exact ⟨_, hp, rfl, State.setByte_byteAt_same s _ v⟩
  case emptyPop =>
    have hsp : s.sp = 0xF4 := hreset
    have hp := pop_of_le (s := s) (by omega)
    rw [hsp] at hp
    exact ⟨_, hp, rfl⟩

end Sys2Proof.Machine

/-! PROOF. R101: the cycle of JMP and where it goes. -/

namespace Sys2Proof.Machine

/-- The frame of an instruction that writes nothing but `pc`. -/
theorem Frame.refl (s : State) : Frame {} s s where
  regs _ _ := rfl
  bytes _ _ := rfl
  sp _ := rfl
  fl _ := rfl
  run _ := rfl
  out _ := rfl

/-- Settles O31: JMP's row has one register field and drops byte 2, and its meaning is one write of `pc`. -/
theorem jmpGoesToTheRegister : Obligations.JmpGoesToTheRegister := by
  refine ⟨cycleOf_of_decodeReg (op := .jmp) fun _ => rfl, fun r s => ?_⟩
  exact ⟨_, execJmp_regByte s r, rfl, (Frame.refl s).setPc _⟩

end Sys2Proof.Machine

/-! PROOF. R50 to R59 and R72: which fetched bytes decode to which instruction, in both directions. -/

namespace Sys2Proof

/-! ## A fetch that holds an encoding -/

/-- The fetched bytes begin with the encoding of `i`, whether or not `i` is well formed. -/
def Fetched.Holds (f : Fetched) (i : Instr) : Prop := encode i <+: [f.ir, f.opa, f.opb]

/-- The first operand of a register field that is above 7, in the order the decoder checks them (R72). -/
abbrev Instr.badRegister? (i : Instr) : Option (OperandSlot × Byte) :=
  i.registerOperands.find? (fun o => 8 ≤ o.2.toNat)

theorem Fetched.holds_iff {f : Fetched} {i : Instr} :
    f.Holds i ↔ i.opcode.byte = f.ir ∧ i.operandBytes <+: [f.opa, f.opb] := List.cons_prefix_cons

theorem singleton_prefix_pair {r a b : Byte} : [r] <+: [a, b] ↔ r = a := by
  simp [List.cons_prefix_cons]

theorem pair_prefix_pair {p q a b : Byte} : [p, q] <+: [a, b] ↔ p = a ∧ q = b := by
  simp [List.cons_prefix_cons]

theorem encode_length (i : Instr) : (encode i).length = i.length := by
  cases i <;> rfl

/-- An encoding of up to three bytes, followed by two more, is what a fetch at its start reads. -/
theorem front_encode (i : Instr) (p q : Byte) :
    ∃ f : Fetched, Fetched.front (encode i ++ [p, q]) = some f ∧ f.Holds i := by
  cases i with
  | hlt | ret => exact ⟨_, rfl, Fetched.holds_iff.2 ⟨rfl, List.nil_prefix⟩⟩
  | push | pop | prn | call | jmp | jeq | jne =>
    exact ⟨_, rfl, Fetched.holds_iff.2 ⟨rfl, singleton_prefix_pair.2 rfl⟩⟩
  | ldi | double | mul | cmp => exact ⟨_, rfl, Fetched.holds_iff.2 ⟨rfl, List.prefix_rfl⟩⟩

/-! ## The register fields of an instruction -/

theorem Instr.wellFormed_iff {i : Instr} : i.WellFormed ↔ i.badRegister? = none := by
  simp [Instr.WellFormed, List.find?_eq_none]

theorem Instr.exists_badRegister {i : Instr} (h : ¬ i.WellFormed) :
    ∃ slot v, i.badRegister? = some (slot, v) := by
  obtain ⟨⟨slot, v⟩, hbad⟩ := Option.ne_none_iff_exists'.1 fun hnone => h (Instr.wellFormed_iff.2 hnone)
  exact ⟨slot, v, hbad⟩

/-- The first bad register of an instruction with one register field. -/
theorem find?_bad_one {slot s : OperandSlot} {r v : Byte} :
    [(slot, r)].find? (fun o => 8 ≤ o.2.toNat) = some (s, v) ↔ 8 ≤ r.toNat ∧ slot = s ∧ r = v := by
  simp

/-- The first bad register of an instruction with two register fields: byte 1, or byte 2 after a good
byte 1. -/
theorem find?_bad_two {slot₁ slot₂ s : OperandSlot} {a b v : Byte} :
    [(slot₁, a), (slot₂, b)].find? (fun o => 8 ≤ o.2.toNat) = some (s, v) ↔
      (8 ≤ a.toNat ∧ slot₁ = s ∧ a = v) ∨ (a.toNat < 8 ∧ 8 ≤ b.toNat ∧ slot₂ = s ∧ b = v) := by
  simp [List.find?_cons_eq_some]

/-! ## Decoding a fetch that holds an encoding -/

theorem Fetched.Holds.decode_eq {f : Fetched} {i : Instr} (h : f.Holds i) :
    decode f = decodeOperands f i.opcode := by
  obtain ⟨ir, opa, opb⟩ := f
  obtain ⟨rfl, -⟩ := Fetched.holds_iff.1 h
  exact decode_of_byte _ _ _

theorem decodeReg_of_lt {f : Fetched} {mk : Byte → Instr} (h : f.opa.toNat < 8) :
    decodeReg f mk = .ok (mk f.opa) := by
  simp only [decodeReg, registerField_of_lt h]; rfl

theorem decodeReg_of_ge {f : Fetched} {mk : Byte → Instr} (h : 8 ≤ f.opa.toNat) :
    decodeReg f mk = .error (.invalidRegister .a f.opa) := by
  simp only [decodeReg, registerField_of_ge h]; rfl

theorem decodeRegReg_of_lt {f : Fetched} {mk : Byte → Byte → Instr} (ha : f.opa.toNat < 8)
    (hb : f.opb.toNat < 8) : decodeRegReg f mk = .ok (mk f.opa f.opb) := by
  simp only [decodeRegReg, registerField_of_lt ha, registerField_of_lt hb]; rfl

theorem decodeRegReg_of_ge_a {f : Fetched} {mk : Byte → Byte → Instr} (ha : 8 ≤ f.opa.toNat) :
    decodeRegReg f mk = .error (.invalidRegister .a f.opa) := by
  simp only [decodeRegReg, registerField_of_ge ha]; rfl

theorem decodeRegReg_of_ge_b {f : Fetched} {mk : Byte → Byte → Instr} (ha : f.opa.toNat < 8)
    (hb : 8 ≤ f.opb.toNat) : decodeRegReg f mk = .error (.invalidRegister .b f.opb) := by
  simp only [decodeRegReg, registerField_of_lt ha, registerField_of_ge hb]; rfl

/-- A well-formed instruction whose encoding was fetched is what the fetch decodes to. -/
theorem Fetched.Holds.decode_of_wellFormed {f : Fetched} {i : Instr} (h : f.Holds i) (hwf : i.WellFormed) :
    decode f = .ok i := by
  rw [h.decode_eq]
  obtain ⟨-, hops⟩ := Fetched.holds_iff.1 h
  cases i with
  | hlt | ret => rfl
  | push | pop | prn | call | jmp | jeq | jne =>
    obtain rfl := singleton_prefix_pair.1 hops
    exact decodeReg_of_lt (hwf _ List.mem_cons_self)
  | ldi | double =>
    obtain ⟨rfl, rfl⟩ := pair_prefix_pair.1 hops
    exact decodeReg_of_lt (hwf _ List.mem_cons_self)
  | mul | cmp =>
    obtain ⟨rfl, rfl⟩ := pair_prefix_pair.1 hops
    exact decodeRegReg_of_lt (hwf _ List.mem_cons_self) (hwf _ (List.mem_cons_of_mem _ List.mem_cons_self))

/-- An ill-formed instruction whose encoding was fetched is rejected by its first bad register. -/
theorem Fetched.Holds.decode_of_badRegister {f : Fetched} {i : Instr} (h : f.Holds i) {slot : OperandSlot}
    {v : Byte} (hbad : i.badRegister? = some (slot, v)) : decode f = .error (.invalidRegister slot v) := by
  rw [h.decode_eq]
  obtain ⟨-, hops⟩ := Fetched.holds_iff.1 h
  cases i with
  | hlt | ret => cases hbad
  | push | pop | prn | call | jmp | jeq | jne =>
    obtain rfl := singleton_prefix_pair.1 hops
    obtain ⟨hge, rfl, rfl⟩ := find?_bad_one.1 hbad
    exact decodeReg_of_ge hge
  | ldi | double =>
    obtain ⟨rfl, rfl⟩ := pair_prefix_pair.1 hops
    obtain ⟨hge, rfl, rfl⟩ := find?_bad_one.1 hbad
    exact decodeReg_of_ge hge
  | mul | cmp =>
    obtain ⟨rfl, rfl⟩ := pair_prefix_pair.1 hops
    obtain ⟨hge, rfl, rfl⟩ | ⟨hlt, hge, rfl, rfl⟩ := find?_bad_two.1 hbad
    · exact decodeRegReg_of_ge_a hge
    · exact decodeRegReg_of_ge_b hlt hge

/-! ## Every fetch of a known opcode holds an encoding -/

/-- The instruction of a row with the given operand bytes; a byte the format does not have is dropped. -/
def Opcode.instr : Opcode → Byte → Byte → Instr
  | .hlt, _, _ => .hlt
  | .ret, _, _ => .ret
  | .push, a, _ => .push a
  | .pop, a, _ => .pop a
  | .prn, a, _ => .prn a
  | .call, a, _ => .call a
  | .jmp, a, _ => .jmp a
  | .jeq, a, _ => .jeq a
  | .jne, a, _ => .jne a
  | .ldi, a, b => .ldi a b
  | .double, a, b => .double a b
  | .mul, a, b => .mul a b
  | .cmp, a, b => .cmp a b

/-- The bytes of a row's instruction are the row's byte and as many of the operand bytes as the format has. -/
theorem Opcode.holds_instr (op : Opcode) (opa opb : Byte) :
    Fetched.Holds ⟨op.byte, opa, opb⟩ (op.instr opa opb) := by
  cases op with
  | hlt | ret => exact Fetched.holds_iff.2 ⟨rfl, List.nil_prefix⟩
  | push | pop | prn | call | jmp | jeq | jne => exact Fetched.holds_iff.2 ⟨rfl, singleton_prefix_pair.2 rfl⟩
  | ldi | double | mul | cmp => exact Fetched.holds_iff.2 ⟨rfl, List.prefix_rfl⟩

theorem Fetched.exists_holds {f : Fetched} (h : f.ir.toNat ∈ Machine.opcodeValues) : ∃ i, f.Holds i := by
  obtain ⟨ir, opa, opb⟩ := f
  obtain ⟨op, rfl⟩ := Opcode.exists_byte h
  exact ⟨_, op.holds_instr opa opb⟩

/-- What a fetch decodes to is exactly the well-formed instruction whose encoding it holds. -/
theorem decode_eq_ok_iff {f : Fetched} {i : Instr} : decode f = .ok i ↔ f.Holds i ∧ i.WellFormed := by
  refine ⟨fun hd => ?_, fun ⟨h, hwf⟩ => h.decode_of_wellFormed hwf⟩
  have hknown : f.ir.toNat ∈ Machine.opcodeValues := opcode_byte_of_decode hd ▸ i.opcode.byte_mem
  obtain ⟨j, hj⟩ := Fetched.exists_holds hknown
  by_cases hwf : j.WellFormed
  · obtain rfl : j = i := Except.ok.inj ((hj.decode_of_wellFormed hwf).symm.trans hd)
    exact ⟨hj, hwf⟩
  · obtain ⟨slot, v, hbad⟩ := Instr.exists_badRegister hwf
    cases (hj.decode_of_badRegister hbad).symm.trans hd

/-! ## The round trips -/

/-- Settles O5: the fetch holds the encoding it was made from, and a well-formed instruction's operand bytes
pass the register checks. -/
theorem decodeOfEncodeIsTheInstruction : Obligations.DecodeOfEncodeIsTheInstruction := by
  intro i p q hwf
  obtain ⟨f, hfront, hholds⟩ := front_encode i p q
  exact ⟨f, hfront, hholds.decode_of_wellFormed hwf⟩

/-- Settles O7: the same fetch, rejected at the first bad register. -/
theorem illFormedEncodingIsRejectedAtItsFirstBadRegister :
    Obligations.IllFormedEncodingIsRejectedAtItsFirstBadRegister := by
  intro i p q hwf
  obtain ⟨f, hfront, hholds⟩ := front_encode i p q
  obtain ⟨slot, v, hbad⟩ := Instr.exists_badRegister hwf
  exact ⟨f, slot, v, hfront, hbad, hholds.decode_of_badRegister hbad⟩

/-- Settles O6: what decodes is held by the fetch, so its encoding begins the fetched bytes. -/
theorem decodedBytesAreTheEncoding : Obligations.DecodedBytesAreTheEncoding := by
  intro f i hd
  obtain ⟨hholds, hwf⟩ := decode_eq_ok_iff.1 hd
  refine ⟨hwf, ?bytes, ?bits, encode_length i⟩
  case bytes => rw [← encode_length]; exact List.prefix_iff_eq_take.1 hholds
  case bits => rw [← opcode_byte_of_decode hd]; exact Laws.EncodedLength.length_of_byte _

/-! ## The bytes an instruction does not use -/

theorem operandBytes_length (i : Instr) : i.operandBytes.length + 1 = i.length := encode_length i

/-- A one-byte instruction is held by every fetch of its opcode byte. -/
theorem Fetched.Holds.of_length_one {f : Fetched} {i : Instr} (h : f.Holds i) (hlen : i.length = 1)
    (opa opb : Byte) : Fetched.Holds ⟨f.ir, opa, opb⟩ i := by
  have hnil : i.operandBytes = [] := List.eq_nil_of_length_eq_zero (by have := operandBytes_length i; omega)
  exact Fetched.holds_iff.2 ⟨(Fetched.holds_iff.1 h).1, hnil ▸ List.nil_prefix⟩

/-- A two-byte instruction is held by every fetch of its first two bytes. -/
theorem Fetched.Holds.of_length_two {f : Fetched} {i : Instr} (h : f.Holds i) (hlen : i.length = 2)
    (opb : Byte) : Fetched.Holds ⟨f.ir, f.opa, opb⟩ i := by
  obtain ⟨hir, hops⟩ := Fetched.holds_iff.1 h
  obtain ⟨r, hone⟩ : ∃ r, i.operandBytes = [r] :=
    List.length_eq_one_iff.1 (by have := operandBytes_length i; omega)
  rw [hone, singleton_prefix_pair] at hops
  exact Fetched.holds_iff.2 ⟨hir, hone ▸ singleton_prefix_pair.2 hops⟩

/-- Settles O10: a fetch with other bytes past the instruction still holds it, DOUBLE's third byte is no
register field, and its meaning has no argument for that byte. -/
theorem unusedFetchedBytesAreIgnored : Obligations.UnusedFetchedBytesAreIgnored := by
  refine ⟨fun f i opa opb hd hlen => ?one, fun f i opb hd hlen => ?two, fun f r pad opb hd => ?pad,
    fun _ _ _ _ => rfl⟩
  case one =>
    obtain ⟨hholds, hwf⟩ := decode_eq_ok_iff.1 hd
    exact (hholds.of_length_one hlen opa opb).decode_of_wellFormed hwf
  case two =>
    obtain ⟨hholds, hwf⟩ := decode_eq_ok_iff.1 hd
    exact (hholds.of_length_two hlen opb).decode_of_wellFormed hwf
  case pad =>
    obtain ⟨hholds, hwf⟩ := decode_eq_ok_iff.1 hd
    obtain ⟨hir, hops⟩ := Fetched.holds_iff.1 hholds
    obtain ⟨rfl, -⟩ := pair_prefix_pair.1 hops
    have hother : Fetched.Holds ⟨f.ir, f.opa, opb⟩ (.double f.opa opb) :=
      Fetched.holds_iff.2 ⟨hir, List.prefix_rfl⟩
    exact hother.decode_of_wellFormed hwf

/-- Settles O9: nine closed words, each decoded by computation. -/
theorem specWordsDecode : Obligations.SpecWordsDecode := by
  unfold Obligations.SpecWordsDecode
  decide

end Sys2Proof

/-! PROOF. R70 to R76 and R111 to R117: what a step can do, said once, with the exception of every cycle that
takes one. -/

namespace Sys2Proof.Machine

/-! ## The exceptions of execute -/

/-- `Raises sp i e`: executed with `sp` in the stack pointer, instruction `i` meets the exception `e`: its first
bad register, else its stack access out of range. -/
inductive Raises (sp : Nat) : Instr → Exception → Prop
  | badRegister {i : Instr} {slot : OperandSlot} {v : Byte} : i.badRegister? = some (slot, v) →
      Raises sp i (.invalidRegister slot v)
  | push (r : RegIndex) : sp = 0 ∨ 256 < sp → Raises sp (.push (regByte r)) (.outOfBounds ((sp : Int) - 1))
  | call (r : RegIndex) : sp = 0 ∨ 256 < sp → Raises sp (.call (regByte r)) (.outOfBounds ((sp : Int) - 1))
  | pop (r : RegIndex) : 255 < sp → Raises sp (.pop (regByte r)) (.outOfBounds sp)
  | ret : 255 < sp → Raises sp .ret (.outOfBounds sp)

/-- A byte below 8 names a register (R52). -/
theorem exists_regByte {b : Byte} (h : b.toNat < 8) : ∃ r, b = regByte r :=
  (byte_cases b).resolve_right (Nat.not_le.2 h)

/-- A push outside 1..256 fails at the address below `sp`. -/
theorem push_of_out {s : State} (h : s.sp = 0 ∨ 256 < s.sp) (v : Byte) :
    push v s = .error (.outOfBounds ((s.sp : Int) - 1)) := by
  rcases push_cases v s with ⟨h1, h2, -⟩ | ⟨-, hp⟩
  · omega
  · exact hp

/-- The meaning of an instruction with a bad register takes InvalidRegister on the first one (log 6). -/
theorem exec_of_badRegister {i : Instr} {slot : OperandSlot} {v : Byte} (hbad : i.badRegister? = some (slot, v))
    (s : State) : exec i s = .next (takeException (.invalidRegister slot v) s) := by
  cases i with
  | hlt | ret => cases hbad
  | push | pop | prn | call | jmp | jeq | jne | ldi | double =>
    obtain ⟨hge, rfl, rfl⟩ := find?_bad_one.1 hbad
    simp [exec, execPush_bad, execPop_bad, execPrn_bad, execCall_bad, execJmp_bad, execJeq_bad, execJne_bad,
      execLdi_bad, execDouble_bad, hge]
  | mul x y =>
    obtain ⟨hge, rfl, rfl⟩ | ⟨hlt, hge, rfl, rfl⟩ := find?_bad_two.1 hbad
    · exact execMul_bad_a hge y
    · obtain ⟨a, rfl⟩ := exists_regByte hlt
      exact execMul_bad_b a hge
  | cmp x y =>
    obtain ⟨hge, rfl, rfl⟩ | ⟨hlt, hge, rfl, rfl⟩ := find?_bad_two.1 hbad
    · exact execCmp_bad_a hge y
    · obtain ⟨a, rfl⟩ := exists_regByte hlt
      exact execCmp_bad_b a hge

/-- The exceptions of execute are the model's: `exec` takes them. -/
theorem Raises.exec_eq {s : State} {i : Instr} {e : Exception} (h : Raises s.sp i e) :
    exec i s = .next (takeException e s) := by
  cases h with
  | badRegister hbad => exact exec_of_badRegister hbad s
  | push r hsp => simp only [exec, execPush_regByte, push_of_out hsp, Except.map, endCycle_error]
  | call r hsp => simp only [exec, execCall_regByte, push_of_out hsp, Except.map, endCycle_error]
  | pop r hsp => simp only [exec, execPop_regByte, pop_of_gt hsp, Except.map, endCycle_error]
  | ret hsp => simp only [exec, execRet_eq, pop_of_gt hsp, Except.map, endCycle_error]

/-- A well-formed instruction completes or meets a stack exception. -/
theorem completes_or_raises_of_wellFormed {i : Instr} (hwf : i.WellFormed) (s : State) :
    (∃ t, Completes s i t) ∨ ∃ e, Raises s.sp i e := by
  have inStack : (s.sp = 0 ∨ 256 < s.sp) ∨ (1 ≤ s.sp ∧ s.sp ≤ 256) := by omega
  cases i with
  | hlt => exact .inl ⟨_, .hlt⟩
  | ret => exact (Nat.lt_or_ge 255 s.sp).symm.imp (fun h => ⟨_, .ret h⟩) fun h => ⟨_, .ret h⟩
  | push b =>
    obtain ⟨r, rfl⟩ := exists_regByte (hwf _ List.mem_cons_self)
    exact inStack.symm.imp (fun h => ⟨_, .push r h.1 h.2⟩) fun h => ⟨_, .push r h⟩
  | call b =>
    obtain ⟨r, rfl⟩ := exists_regByte (hwf _ List.mem_cons_self)
    exact inStack.symm.imp (fun h => ⟨_, .call r h.1 h.2⟩) fun h => ⟨_, .call r h⟩
  | pop b =>
    obtain ⟨r, rfl⟩ := exists_regByte (hwf _ List.mem_cons_self)
    exact (Nat.lt_or_ge 255 s.sp).symm.imp (fun h => ⟨_, .pop r h⟩) fun h => ⟨_, .pop r h⟩
  | prn | jmp | jeq | jne | ldi | double =>
    obtain ⟨r, rfl⟩ := exists_regByte (hwf _ List.mem_cons_self)
    exact .inl ⟨_, by constructor⟩
  | mul | cmp =>
    obtain ⟨a, rfl⟩ := exists_regByte (hwf _ List.mem_cons_self)
    obtain ⟨b, rfl⟩ := exists_regByte (hwf _ (List.mem_cons_of_mem _ List.mem_cons_self))
    exact .inl ⟨_, by constructor⟩

/-- Whatever the instruction and the state, execute completes or meets one of the exceptions above. -/
theorem completes_or_raises (i : Instr) (s : State) : (∃ t, Completes s i t) ∨ ∃ e, Raises s.sp i e := by
  by_cases hwf : i.WellFormed
  · exact completes_or_raises_of_wellFormed hwf s
  · obtain ⟨slot, v, hbad⟩ := Instr.exists_badRegister hwf
    exact .inr ⟨_, .badRegister hbad⟩

/-! ## The cycle -/

/-- A Running cycle whose bytes hold the encoding of `i` is the meaning of `i`, well formed or not: a bad
register is the same exception in decode as in execute. -/
theorem step_of_holds {s : State} {i : Instr} (hrun : s.run = .running) (hpc : s.pc ≤ 253)
    (h : s.bytesAtPc.Holds i) : step s = exec i s := by
  by_cases hwf : i.WellFormed
  · exact step_of_decode_ok hrun hpc (h.decode_of_wellFormed hwf)
  · obtain ⟨slot, v, hbad⟩ := Instr.exists_badRegister hwf
    rw [exec_of_badRegister hbad]
    exact step_of_decode_error hrun hpc (h.decode_of_badRegister hbad)

/-- `CycleRaises s e`: a Running cycle that begins at `s` meets `e`, in fetch, in decode or in execute. -/
inductive CycleRaises (s : State) : Exception → Prop
  | fetch {e : Exception} : 254 ≤ s.pc → fetch s = .error e → CycleRaises s e
  | unknownOpcode : s.pc ≤ 253 → (s.byteAt s.pc).toNat ∉ opcodeValues →
      CycleRaises s (.unknownOpcode (s.byteAt s.pc))
  | instr {i : Instr} {e : Exception} : s.pc ≤ 253 → s.bytesAtPc.Holds i → Raises s.sp i e → CycleRaises s e

theorem CycleRaises.step_eq {s : State} {e : Exception} (hrun : s.run = .running) (h : CycleRaises s e) :
    step s = .next (takeException e s) := by
  cases h with
  | fetch _ hf => exact step_of_fetch_error hrun hf
  | unknownOpcode hpc hir => exact step_of_unknownOpcode hrun hpc hir
  | instr hpc hi hraises => exact (step_of_holds hrun hpc hi).trans hraises.exec_eq

/-- `Steps s t`: one step leads from `s` to `t`, doing nothing, completing an instruction, or taking an
exception. -/
inductive Steps (s : State) : State → Prop
  | inert : s.run ≠ .running → Steps s s
  | completes {i : Instr} {t : State} : s.run = .running → s.pc ≤ 253 → s.bytesAtPc.Holds i →
      Completes s i t → Steps s t
  | faults {e : Exception} : s.run = .running → CycleRaises s e → Steps s (takeException e s)

theorem Steps.step_eq {s t : State} (h : Steps s t) : step s = .next t := by
  cases h with
  | inert hrun => exact step_of_not_running hrun
  | completes hrun hpc hi hc => exact (step_of_holds hrun hpc hi).trans hc.exec_eq
  | faults hrun he => exact he.step_eq hrun

/-- A Running cycle completes an instruction or meets an exception. -/
theorem cycle_cases (s : State) :
    (∃ i t, s.pc ≤ 253 ∧ s.bytesAtPc.Holds i ∧ Completes s i t) ∨ ∃ e, CycleRaises s e := by
  rcases fetch_cases s with ⟨hpc, -⟩ | ⟨hpc, e, hf⟩
  · by_cases hir : (s.byteAt s.pc).toNat ∈ opcodeValues
    · obtain ⟨i, hi⟩ := Fetched.exists_holds (f := s.bytesAtPc) hir
      rcases completes_or_raises i s with ⟨t, hc⟩ | ⟨e, he⟩
      · exact .inl ⟨i, t, hpc, hi, hc⟩
      · exact .inr ⟨e, .instr hpc hi he⟩
    · exact .inr ⟨_, .unknownOpcode hpc hir⟩
  · exact .inr ⟨e, .fetch hpc hf⟩

theorem exists_steps (s : State) : ∃ t, Steps s t := by
  by_cases hrun : s.run = .running
  · rcases cycle_cases s with ⟨i, t, hpc, hi, hc⟩ | ⟨e, he⟩
    · exact ⟨t, .completes hrun hpc hi hc⟩
    · exact ⟨_, .faults hrun he⟩
  · exact ⟨s, .inert hrun⟩

/-- The steps above are all there are. -/
theorem steps_of_step {s t : State} (h : step s = .next t) : Steps s t := by
  obtain ⟨u, hu⟩ := exists_steps s
  obtain rfl : u = t := Host.Outcome.next.inj (hu.step_eq.symm.trans h)
  exact hu

/-! ## The statements about the cycle -/

/-- Settles O22: execute reports the first bad register whatever the instruction. -/
theorem illFormedInstructionTakesInvalidRegister : Obligations.IllFormedInstructionTakesInvalidRegister :=
  fun _ s _ _ hbad => exec_of_badRegister hbad s

/-- Settles O16: an execution completes or raises, and both answer a next state; so does a step. -/
theorem everyStepAnswersANextState : Obligations.EveryStepAnswersANextState := by
  refine ⟨fun i s => ?exec, fun s => ?step⟩
  case exec =>
    rcases completes_or_raises i s with ⟨t, hc⟩ | ⟨e, he⟩
    · exact ⟨t, hc.exec_eq⟩
    · exact ⟨_, he.exec_eq⟩
  case step =>
    obtain ⟨t, ht⟩ := exists_steps s
    exact ⟨t, ht.step_eq⟩

/-- Settles O11: the step with its fetch and decode resolved. -/
theorem stepRunsTheDecodedInstruction : Obligations.StepRunsTheDecodedInstruction :=
  fun _ _ hrun hpc hd => step_of_decode_ok hrun hpc hd

theorem length_le (i : Instr) : i.length ≤ 3 := by
  cases hf : i.opcode.format <;> simp [Instr.length, Format.length, hf]

/-- The bytes a fetch at `pc` reads, by position. -/
theorem bytesAtPc_getElem (s : State) {k : Nat} (hk : k < 3) :
    [s.bytesAtPc.ir, s.bytesAtPc.opa, s.bytesAtPc.opb][k] = s.byteAt (s.pc + k) := by
  obtain rfl | rfl | rfl : k = 0 ∨ k = 1 ∨ k = 2 := by omega
  all_goals rfl

/-- Settles O12: memory that agrees with the encoding from `pc` on makes the fetch hold it. -/
theorem encodedInstructionAtPcRuns : Obligations.EncodedInstructionAtPcRuns := by
  intro s i hrun hpc _ hbytes
  have hlen : (encode i).length ≤ 3 := encode_length i ▸ length_le i
  refine step_of_holds hrun hpc (List.prefix_iff_getElem.2 ⟨hlen, fun k hk => ?_⟩)
  rw [bytesAtPc_getElem s (Nat.lt_of_lt_of_le hk hlen), hbytes k hk]

/-- Settles O13: the fetch fails at 256, and the record's bytes are those below 256. -/
theorem fetchPastTheTopFaults : Obligations.FetchPastTheTopFaults := by
  intro s hrun hlo hhi
  refine ⟨_, _, step_of_fetch_error hrun (fetch_of_top hlo hhi), rfl, rfl, rfl, ?opb, ?opa, ?ir⟩
  case opb => exact (fetchedByte?_eq 2 s).trans (if_neg (by omega))
  case opa =>
    refine (fetchedByte?_eq 1 s).trans ?_
    by_cases h : s.pc = 254
    · rw [if_pos (by omega), if_pos h, h]
    · rw [if_neg (by omega), if_neg h]
  case ir =>
    refine (fetchedByte?_eq 0 s).trans ?_
    by_cases h : s.pc = 256
    · rw [if_neg (by omega), if_pos h]
    · rw [if_pos (by omega), if_neg h]; rfl

/-- Settles O14: the cycle ends in decode, with all three bytes fetched. -/
theorem unknownOpcodeFaults : Obligations.UnknownOpcodeFaults := by
  intro s hrun hpc hir
  refine ⟨_, _, step_of_unknownOpcode hrun hpc hir, rfl, rfl, rfl, rfl, ?ir, ?opa, ?opb⟩
  case ir => exact (fetchedByte?_eq 0 s).trans (if_pos (by omega))
  case opa => exact (fetchedByte?_eq 1 s).trans (if_pos (by omega))
  case opb => exact (fetchedByte?_eq 2 s).trans (if_pos (by omega))

/-! ## A machine that is not Running -/

theorem run_of_not_running {s : State} (h : s.run ≠ .running) (n : Nat) : Host.Core.run core n s = .next s := by
  induction n with
  | zero => rfl
  | succ n ih =>
    have hstep : core.step s = .next s := step_of_not_running h
    simp only [Host.Core.run, hstep, ih]

theorem load_of_not_loading {s : State} (h : s.run ≠ .loading) (image : List Byte) :
    load image s = .refused .loaderDone := by
  cases hr : s.run with
  | loading => exact absurd hr h
  | running | halted | faulted _ => simp only [load, hr]

/-- Settles O17: by induction on the number of steps, each of which answers the state unchanged. -/
theorem loadingHaltedAndFaultedAreInert : Obligations.LoadingHaltedAndFaultedAreInert :=
  fun _ n hrun => run_of_not_running hrun n

/-- Settles O21: a Faulted machine neither runs nor loads. -/
theorem theFaultRecordIsNeverRewritten : Obligations.TheFaultRecordIsNeverRewritten := by
  intro s t record n hfault hrun
  have hinert : s.run ≠ .running := by rw [hfault]; nofun
  obtain rfl : s = t := Host.Outcome.next.inj ((run_of_not_running hinert n).symm.trans hrun)
  exact ⟨hfault, load_of_not_loading (by rw [hfault]; nofun)⟩

end Sys2Proof.Machine

/-! PROOF. R16 to R25, field by field: what a completing instruction can do to each register of the state, and
the invariant that follows. -/

namespace Sys2Proof.Machine

/-! ## The bytes of the instruction at `pc` -/

theorem holds_opcode {s : State} {i : Instr} (h : s.bytesAtPc.Holds i) : s.byteAt s.pc = i.opcode.byte :=
  (Fetched.holds_iff.1 h).1.symm

/-- The register byte of a two-byte instruction stands at `pc + 1`. -/
theorem holds_operand {s : State} {i : Instr} {b : Byte} (h : s.bytesAtPc.Holds i) (hi : i.operandBytes = [b]) :
    s.byteAt (s.pc + 1) = b := by
  have hops := (Fetched.holds_iff.1 h).2
  rw [hi] at hops
  exact (singleton_prefix_pair.1 hops).symm

/-! ## What a completing instruction changes -/

section
variable {s t : State} {i : Instr}

theorem Completes.run_eq (h : Completes s i t) : (i = .hlt ∧ t = s.setRun .halted) ∨ t.run = s.run := by
  cases h with
  | hlt => exact .inl ⟨rfl, rfl⟩
  | _ => exact .inr rfl

/-- The next `pc` is a jump target, a byte, or lies at most three above (R14, R16). -/
theorem Completes.pc_cases (h : Completes s i t) : t.pc ≤ s.pc + 3 ∨ t.pc < 256 := by
  have advance (n : Nat) (hn : n ≤ 3) : s.pc + n ≤ s.pc + 3 := Nat.add_le_add_left hn _
  cases h with
  | hlt => exact .inl (advance 0 (by decide))
  | push | pop | prn => exact .inl (advance 2 (by decide))
  | ldi | double | mul | cmp => exact .inl (advance 3 (by decide))
  | ret | call | jmp => exact .inr (BitVec.isLt _)
  | jeq r =>
    rw [State.setPc_pc]
    split
    · exact .inr (BitVec.isLt _)
    · exact .inl (advance 2 (by decide))
  | jne r =>
    rw [State.setPc_pc]
    split
    · exact .inl (advance 2 (by decide))
    · exact .inr (BitVec.isLt _)

/-- `sp` stays, or moves by one as R17 says, within its range. -/
theorem Completes.sp_cases (h : Completes s i t) :
    t.sp = s.sp ∨ (t.sp + 1 = s.sp ∧ (i.opcode = .push ∨ i.opcode = .call)) ∨
      (t.sp = s.sp + 1 ∧ s.sp ≤ 255 ∧ (i.opcode = .pop ∨ i.opcode = .ret)) := by
  cases h with
  | push r h1 _ => exact .inr (.inl ⟨Nat.sub_add_cancel h1, .inl rfl⟩)
  | call r h1 _ => exact .inr (.inl ⟨Nat.sub_add_cancel h1, .inr rfl⟩)
  | pop r hsp => exact .inr (.inr ⟨rfl, hsp, .inl rfl⟩)
  | ret hsp => exact .inr (.inr ⟨rfl, hsp, .inr rfl⟩)
  | _ => exact .inl rfl

/-- `fl` stays, or is what CMP leaves (R20). -/
theorem Completes.fl_cases (h : Completes s i t) :
    (i.opcode ≠ .cmp ∧ t.fl = s.fl) ∨ (i.opcode = .cmp ∧ (t.fl = 1 ∨ t.fl = 2 ∨ t.fl = 4)) := by
  cases h with
  | cmp a b =>
    refine .inr ⟨rfl, ?_⟩
    exact (compareFlags_cases (s.x a) (s.x b)).imp And.right (Or.imp And.right And.right)
  | _ => exact .inl ⟨nofun, rfl⟩

/-- Memory stays, or one cell is written, at `sp - 1`, by PUSH or CALL (R36). -/
theorem Completes.mem_cases (h : Completes s i t) :
    t.mem = s.mem ∨ (1 ≤ s.sp ∧ s.sp ≤ 256 ∧ t.sp = s.sp - 1 ∧ ∃ v, t.mem = Memory.write s.mem (s.sp - 1) v ∧
      ((∃ r, i = .push (regByte r) ∧ v = s.x r) ∨ (i.opcode = .call ∧ v = returnAddress s))) := by
  cases h with
  | push r h1 h2 => exact .inr ⟨h1, h2, rfl, _, rfl, .inl ⟨r, rfl, rfl⟩⟩
  | call r h1 h2 => exact .inr ⟨h1, h2, rfl, _, rfl, .inr ⟨rfl, rfl⟩⟩
  | _ => exact .inl rfl

end

/-! ## The invariant -/

section
variable {s t : State}

/-- A fault record is true of the state that takes the exception. -/
theorem State.Inv.takeException (h : s.Inv) {e : Exception} (he : e.possible) : (takeException e s).Inv where
  pc_le := h.pc_le
  sp_le := h.sp_le
  fl_legal := h.fl_legal
  mem_wf := h.mem_wf
  record_true := by rintro _ ⟨⟩; exact ⟨rfl, he⟩

theorem State.Inv.completes (h : s.Inv) (hrun : s.run = .running) (hpc : s.pc ≤ 253) {i : Instr}
    (hc : Completes s i t) : t.Inv where
  pc_le := by have := hc.pc_cases; omega
  sp_le := by have := hc.sp_cases; have := h.sp_le; omega
  fl_legal := by
    rcases hc.fl_cases with ⟨-, hfl⟩ | ⟨-, hfl⟩
    · exact hfl ▸ h.fl_legal
    · exact .inr hfl
  mem_wf := by
    rcases hc.mem_cases with hm | ⟨h1, h2, -, v, hm, -⟩
    · exact hm ▸ h.mem_wf
    · exact hm ▸ Memory.write_wf h.mem_wf (by omega) v
  record_true := by
    rcases hc.run_eq with ⟨-, rfl⟩ | hr
    · nofun
    · rw [hr, hrun]; nofun

/-- The value of a bad register is above 7. -/
theorem le_of_badRegister {i : Instr} {slot : OperandSlot} {v : Byte}
    (h : i.badRegister? = some (slot, v)) : 8 ≤ v.toNat := by
  simpa using List.find?_some h

theorem Raises.possible {sp : Nat} {i : Instr} {e : Exception} (h : Raises sp i e) (hsp : sp ≤ 256) :
    e.possible := by
  cases h with
  | badRegister hbad => exact le_of_badRegister hbad
  | push | call => exact .inr (by omega)
  | pop | ret => exact .inl (by omega)

/-- The exceptions of a cycle are among those a program can cause (R112 to R115). -/
theorem CycleRaises.possible {e : Exception} (he : CycleRaises s e) (h : s.Inv) : e.possible := by
  cases he with
  | fetch hpc hf =>
    cases (fetch_of_top hpc h.pc_le).symm.trans hf
    exact .inl rfl
  | unknownOpcode _ hir => exact hir
  | instr _ _ hraises => exact hraises.possible h.sp_le

theorem Steps.inv (hs : Steps s t) (h : s.Inv) : t.Inv := by
  cases hs with
  | inert => exact h
  | completes hrun hpc _ hc => exact h.completes hrun hpc hc
  | faults _ he => exact h.takeException (he.possible h)

end

/-- Settles O42: the two ways a Running step can end keep the invariant, and any other step does nothing. -/
theorem everyStepKeepsTheInvariant : Obligations.EveryStepKeepsTheInvariant :=
  fun _ _ hinv hstep => (steps_of_step hstep).inv hinv

/-- Settles O43: every field is a fixed value, and Loading carries no record. -/
theorem resetMeetsTheInvariant : Obligations.ResetMeetsTheInvariant where
  pc_le := by decide
  sp_le := by decide
  fl_legal := .inl rfl
  mem_wf := Memory.wf_reset
  record_true := nofun

/-! ## The loader and the invariant -/

theorem memWrite_mem_wf {a : Int} {v : Byte} {s t : State} (h : memWrite a v s = .ok t)
    (hm : Memory.wf s.mem) : Memory.wf t.mem := by
  have hin : 0 ≤ a ∧ a < 256 := by
    by_contra hout
    cases (memWrite_out (by omega) v s).symm.trans h
  rw [memWrite_eq_ok h]
  exact Memory.write_wf hm (by omega) v

theorem loadBytes_mem_wf {image : List Byte} {a : Nat} {s t : State} (h : loadBytes a image s = .ok t)
    (hm : Memory.wf s.mem) : Memory.wf t.mem := by
  induction image generalizing a s with
  | nil => cases h; exact hm
  | cons v rest ih =>
    cases hw : memWrite a v s with
    | error e => simp [loadBytes, hw, bind, Except.bind] at h
    | ok u =>
      have hu := memWrite_mem_wf hw hm
      rw [memWrite_eq_ok hw] at hu
      exact ih (loadBytes_cons_eq_ok h) hu

theorem load_inv {image : List Byte} {s t : State} (hinv : s.Inv) (h : load image s = .next t) : t.Inv := by
  obtain ⟨-, u, hu, rfl⟩ := load_eq_next h
  have hframe : u = { s with mem := u.mem } := loadBytes_frame hu
  exact {
    pc_le := by rw [hframe]; exact hinv.pc_le
    sp_le := by rw [hframe]; exact hinv.sp_le
    fl_legal := by rw [hframe]; exact hinv.fl_legal
    mem_wf := (loadBytes_mem_wf hu hinv.mem_wf : Memory.wf u.mem)
    record_true := nofun }

/-- Settles O44: the image's writes keep memory canonical, and Running carries no record. -/
theorem loadKeepsTheInvariant : Obligations.LoadKeepsTheInvariant := fun _ _ _ hinv hload => load_inv hinv hload

theorem Reachable.inv {s : State} (h : Reachable s) : s.Inv := by
  induction h with
  | reset => exact resetMeetsTheInvariant
  | load image s t _ hload ih => exact load_inv ih hload
  | step s t _ hstep ih => exact (steps_of_step hstep).inv ih

/-- A possible exception has one of the three codes programs see (R111, R113). -/
theorem Exception.code_of_possible {e : Exception} (h : e.possible) : e.code = 1 ∨ e.code = 3 ∨ e.code = 4 := by
  cases e with
  | outOfBounds => exact .inl rfl
  | unsupportedOperation => exact h.elim
  | unknownOpcode => exact .inr (.inl rfl)
  | invalidRegister => exact .inr (.inr rfl)

/-- Settles O20: the record of a reachable fault is true, and its cause possible. -/
theorem unsupportedOperationIsUnreachable : Obligations.UnsupportedOperationIsUnreachable :=
  fun _ record hreach hfault => Exception.code_of_possible (hreach.inv.record_true record hfault).2

end Sys2Proof.Machine

/-! PROOF. R111 and R117: the exception of a cycle is the first of the spec's list, and what the statements about
faults and ends follow from. -/

namespace Sys2Proof.Machine

/-! ## The lines of the list about register bytes -/

theorem byte_mem_registerAValues (op : Opcode) : op.byte.toNat ∈ registerAValues ↔ op.format ≠ .f0 := by
  cases op <;> decide

theorem byte_mem_registerBValues (op : Opcode) : op.byte.toNat ∈ registerBValues ↔ op.format = .f2rr := by
  cases op <;> decide

theorem find?_bad_one_eq (slot : OperandSlot) (r : Byte) :
    [(slot, r)].find? (fun o => 8 ≤ o.2.toNat) = if 8 ≤ r.toNat then some (slot, r) else none := by
  split <;> simp_all

theorem find?_bad_two_eq (slot₁ slot₂ : OperandSlot) (a b : Byte) :
    [(slot₁, a), (slot₂, b)].find? (fun o => 8 ≤ o.2.toNat) =
      if 8 ≤ a.toNat then some (slot₁, a) else if 8 ≤ b.toNat then some (slot₂, b) else none := by
  split
  · simp_all
  · rw [List.find?_cons_of_neg (by simpa using Nat.not_le.1 ‹_›), find?_bad_one_eq]

/-- The first bad register of an instruction is the first bad register byte by the spec's list of formats. -/
theorem badRegister?_of_holds {f : Fetched} {i : Instr} (h : f.Holds i) : i.badRegister? =
    if f.ir.toNat ∈ registerAValues ∧ 8 ≤ f.opa.toNat then some (.a, f.opa)
    else if f.ir.toNat ∈ registerBValues ∧ 8 ≤ f.opb.toNat then some (.b, f.opb)
    else none := by
  obtain ⟨hir, hops⟩ := Fetched.holds_iff.1 h
  simp only [← hir, byte_mem_registerAValues, byte_mem_registerBValues]
  cases i with
  | hlt | ret => rfl
  | push | pop | prn | call | jmp | jeq | jne =>
    obtain rfl := singleton_prefix_pair.1 hops
    exact (find?_bad_one_eq .a _).trans (by simp [Instr.opcode, Opcode.format])
  | ldi | double =>
    obtain ⟨rfl, rfl⟩ := pair_prefix_pair.1 hops
    exact (find?_bad_one_eq .a _).trans (by simp [Instr.opcode, Opcode.format])
  | mul | cmp =>
    obtain ⟨rfl, rfl⟩ := pair_prefix_pair.1 hops
    exact (find?_bad_two_eq .a .b _ _).trans (by simp [Instr.opcode, Opcode.format])

/-! ## The list under an encoding -/

/-- The last lines of the list: the stack access of an instruction with legal register bytes (R112). -/
def stackException (s : State) : Option Exception :=
  if ((s.byteAt s.pc).toNat = 69 ∨ (s.byteAt s.pc).toNat = 80) ∧ s.sp = 0 then some (.outOfBounds (-1))
  else if ((s.byteAt s.pc).toNat = 70 ∨ (s.byteAt s.pc).toNat = 17) ∧ s.sp = 256 then some (.outOfBounds 256)
  else none

section
variable {s t : State} {i : Instr} {e : Exception}

theorem firstException_of_fetch (h : 254 ≤ s.pc) : firstException s = some (.outOfBounds 256) := if_pos h

theorem firstException_of_unknownOpcode (hpc : s.pc ≤ 253) (hir : (s.byteAt s.pc).toNat ∉ opcodeValues) :
    firstException s = some (.unknownOpcode (s.byteAt s.pc)) :=
  (if_neg (by omega)).trans (if_pos hir)

/-- Past fetch and opcode, the list is the first bad register, then the stack access. -/
theorem firstException_of_holds (hpc : s.pc ≤ 253) (h : s.bytesAtPc.Holds i) :
    firstException s = (i.badRegister?.map fun o => .invalidRegister o.1 o.2).or (stackException s) := by
  have hknown : (s.byteAt s.pc).toNat ∈ opcodeValues := holds_opcode h ▸ i.opcode.byte_mem
  refine (if_neg (by omega)).trans ((if_neg (not_not_intro hknown)).trans ?_)
  have hbad : i.badRegister? =
      if (s.byteAt s.pc).toNat ∈ registerAValues ∧ 8 ≤ (s.byteAt (s.pc + 1)).toNat then
        some (.a, s.byteAt (s.pc + 1))
      else if (s.byteAt s.pc).toNat ∈ registerBValues ∧ 8 ≤ (s.byteAt (s.pc + 2)).toNat then
        some (.b, s.byteAt (s.pc + 2))
      else none := badRegister?_of_holds h
  rw [hbad, stackException]
  split_ifs <;> rfl

theorem firstException_of_badRegister (hpc : s.pc ≤ 253) (h : s.bytesAtPc.Holds i) {slot : OperandSlot}
    {v : Byte} (hbad : i.badRegister? = some (slot, v)) :
    firstException s = some (.invalidRegister slot v) := by
  rw [firstException_of_holds hpc h, hbad]; rfl

theorem firstException_of_wellFormed (hpc : s.pc ≤ 253) (h : s.bytesAtPc.Holds i) (hwf : i.WellFormed) :
    firstException s = stackException s := by
  rw [firstException_of_holds hpc h, Instr.wellFormed_iff.1 hwf]; rfl

/-! ## The exception of a cycle is the first of the list -/

theorem holds_tableValue (h : s.bytesAtPc.Holds i) : (s.byteAt s.pc).toNat = tableValue i := by
  rw [holds_opcode h, tableValue_eq]

theorem wellFormed_of_regByte {slot : OperandSlot} {r : RegIndex}
    (h : i.registerOperands = [(slot, regByte r)]) : i.WellFormed := by
  rw [Instr.WellFormed, h]
  simp

theorem wellFormed_of_regByte_regByte {slot₁ slot₂ : OperandSlot} {a b : RegIndex}
    (h : i.registerOperands = [(slot₁, regByte a), (slot₂, regByte b)]) : i.WellFormed := by
  rw [Instr.WellFormed, h]
  simp

theorem Completes.wellFormed (hc : Completes s i t) : i.WellFormed := by
  cases hc with
  | hlt | ret => nofun
  | push | pop | prn | call | jmp | jeq | jne | ldi | double => exact wellFormed_of_regByte rfl
  | mul | cmp => exact wellFormed_of_regByte_regByte rfl

theorem stackException_of_completes (h : s.bytesAtPc.Holds i) (hc : Completes s i t) :
    stackException s = none := by
  have hir := holds_tableValue h
  refine (if_neg ?push).trans (if_neg ?pop)
  case push => cases hc <;> simp only [tableValue] at hir <;> omega
  case pop => cases hc <;> simp only [tableValue] at hir <;> omega

theorem firstException_of_completes (hpc : s.pc ≤ 253) (h : s.bytesAtPc.Holds i) (hc : Completes s i t) :
    firstException s = none :=
  (firstException_of_wellFormed hpc h hc.wellFormed).trans (stackException_of_completes h hc)

theorem firstException_of_raises (hpc : s.pc ≤ 253) (hsp : s.sp ≤ 256) (h : s.bytesAtPc.Holds i)
    (he : Raises s.sp i e) : firstException s = some e := by
  have hir := holds_tableValue h
  cases he with
  | badRegister hbad => exact firstException_of_badRegister hpc h hbad
  | push r hout =>
    have h0 : s.sp = 0 := by omega
    rw [firstException_of_wellFormed hpc h (wellFormed_of_regByte rfl), h0]
    exact if_pos ⟨.inl hir, h0⟩
  | call r hout =>
    have h0 : s.sp = 0 := by omega
    rw [firstException_of_wellFormed hpc h (wellFormed_of_regByte rfl), h0]
    exact if_pos ⟨.inr hir, h0⟩
  | pop r hout =>
    have h256 : s.sp = 256 := by omega
    rw [firstException_of_wellFormed hpc h (wellFormed_of_regByte rfl), h256]
    exact (if_neg (by omega)).trans (if_pos ⟨.inl hir, h256⟩)
  | ret hout =>
    have h256 : s.sp = 256 := by omega
    rw [firstException_of_wellFormed hpc h nofun, h256]
    exact (if_neg (by omega)).trans (if_pos ⟨.inr hir, h256⟩)

/-- Where `pc` and `sp` are in their ranges, what the cycle meets is what the list names first. -/
theorem CycleRaises.firstException_eq (he : CycleRaises s e) (hinv : s.Inv) : firstException s = some e := by
  cases he with
  | fetch hpc hf =>
    cases (fetch_of_top hpc hinv.pc_le).symm.trans hf
    exact firstException_of_fetch hpc
  | unknownOpcode hpc hir => exact firstException_of_unknownOpcode hpc hir
  | instr hpc hi hraises => exact firstException_of_raises hpc hinv.sp_le hi hraises

end

/-- Settles O15: the cycle completes, with nothing on the list, or meets the first exception on it. -/
theorem cyclesFaultExactlyInPriorityOrder : Obligations.CyclesFaultExactlyInPriorityOrder := by
  intro s hinv hrun
  rcases cycle_cases s with ⟨i, t, hpc, hi, hc⟩ | ⟨e, he⟩
  · have hnone : firstException s = none := firstException_of_completes hpc hi hc
    refine ⟨fun e hsome => ?_, fun _ => ⟨t, (Steps.completes hrun hpc hi hc).step_eq, ?_⟩⟩
    · cases hnone.symm.trans hsome
    · rcases hc.run_eq with ⟨-, rfl⟩ | hr
      · exact .inr rfl
      · exact .inl (hr.trans hrun)
  · have hsome : firstException s = some e := he.firstException_eq hinv
    refine ⟨fun e' h => ?_, fun hnone => ?_⟩
    · obtain rfl : e = e' := Option.some.inj (hsome.symm.trans h)
      exact he.step_eq hrun
    · cases hnone.symm.trans hsome

/-- A Running step that ends Faulted is a cycle that met an exception. -/
theorem cycleRaises_of_faulted {s t : State} {record : FaultRecord} (hrun : s.run = .running)
    (hstep : step s = .next t) (hfault : t.run = .faulted record) :
    ∃ e, CycleRaises s e ∧ t = takeException e s := by
  cases steps_of_step hstep with
  | inert hn => exact absurd hrun hn
  | completes _ _ _ hc =>
    rcases hc.run_eq with ⟨-, rfl⟩ | hr
    · cases hfault
    · cases (hr.trans hrun).symm.trans hfault
  | faults _ he => exact ⟨_, he, rfl⟩

/-- Settles O19: an exception is taken from the state at the start of the cycle, so the record is that state's. -/
theorem faultsArePreciseAndRecorded : Obligations.FaultsArePreciseAndRecorded := by
  intro s t record hrun hstep hfault
  obtain ⟨e, he, rfl⟩ := cycleRaises_of_faulted hrun hstep hfault
  obtain rfl : faultRecord e s = record := Run.faulted.inj hfault
  have present (k : Nat) : fetchedByte? k s = if s.pc + k ≤ 255 then some (s.byteAt (s.pc + k)) else none := by
    rw [fetchedByte?_eq]; congr 1; simp only [eq_iff_iff]; omega
  exact ⟨rfl, rfl, present 0, present 1, present 2, he.firstException_eq⟩

/-- Settles O18: HLT at `pc` runs to the halted state, and no other completing instruction or exception halts. -/
theorem onlyHltReachesTheGoodEnd : Obligations.OnlyHltReachesTheGoodEnd := by
  intro s t hrun hstep
  have halts (hpc : s.pc ≤ 253) (hir : s.byteAt s.pc = 1) : t = s.setRun .halted := by
    have hi : s.bytesAtPc.Holds .hlt := Fetched.holds_iff.2 ⟨hir.symm, List.nil_prefix⟩
    exact Host.Outcome.next.inj (hstep.symm.trans (Steps.completes hrun hpc hi .hlt).step_eq)
  cases steps_of_step hstep with
  | inert hn => exact absurd hrun hn
  | completes _ hpc hi hc =>
    rcases hc.run_eq with ⟨rfl, rfl⟩ | hr
    · exact ⟨.inr (.inl rfl), iff_of_true rfl ⟨hpc, holds_opcode hi⟩, fun _ => rfl⟩
    · have hnot : ¬ t.goodEnd := by rw [State.goodEnd, hr, hrun]; nofun
      exact ⟨.inl (hr.trans hrun), iff_of_false hnot fun h => hnot (congrArg _ (halts h.1 h.2)),
        fun h => absurd h hnot⟩
  | faults _ he =>
    refine ⟨.inr (.inr ⟨_, rfl⟩), iff_of_false nofun fun h => ?_, nofun⟩
    cases congrArg State.run (halts h.1 h.2)

end Sys2Proof.Machine

/-! PROOF. R17, R20, R23, R24 over whole steps: who writes `fl`, `sp`, memory and `out`, and who can observe `fl`
and `out`. -/

namespace Sys2Proof.Machine

/-! ## A cycle's exception depends on `pc`, `sp` and memory alone -/

section
variable {s t u : State} {i : Instr} {e : Exception}

theorem byteAt_congr (hmem : u.mem = s.mem) (a : Nat) : u.byteAt a = s.byteAt a :=
  congrArg (Memory.read · a) hmem

theorem fetch_congr (hpc : u.pc = s.pc) (hmem : u.mem = s.mem) : fetch u = fetch s := by
  simp only [fetch, memRead, byteAt_congr hmem, hpc]

theorem bytesAtPc_congr (hpc : u.pc = s.pc) (hmem : u.mem = s.mem) : u.bytesAtPc = s.bytesAtPc := by
  simp only [State.bytesAtPc, byteAt_congr hmem, hpc]

theorem CycleRaises.congr (h : CycleRaises s e) (hpc : u.pc = s.pc) (hsp : u.sp = s.sp) (hmem : u.mem = s.mem) :
    CycleRaises u e := by
  cases h with
  | fetch htop hf => exact .fetch (hpc ▸ htop) ((fetch_congr hpc hmem).trans hf)
  | unknownOpcode hle hir =>
    have hbyte : u.byteAt u.pc = s.byteAt s.pc := by rw [byteAt_congr hmem, hpc]
    rw [← hbyte] at hir ⊢
    exact .unknownOpcode (hpc ▸ hle) hir
  | instr hle hi hraises => exact .instr (hpc ▸ hle) (bytesAtPc_congr hpc hmem ▸ hi) (hsp ▸ hraises)

/-! ## Flags -/

/-- A step changes `fl` only by completing a CMP. -/
theorem Steps.fl_cases (h : Steps s t) : t.fl = s.fl ∨ s.run = .running ∧ s.byteAt s.pc = 167 := by
  cases h with
  | inert | faults => exact .inl rfl
  | completes hrun _ hi hc =>
    rcases hc.fl_cases with ⟨-, hfl⟩ | ⟨hop, -⟩
    · exact .inl hfl
    · exact .inr ⟨hrun, by rw [holds_opcode hi, hop]; rfl⟩

/-- A CMP that completes leaves exactly one flag set. -/
theorem Steps.fl_of_cmp (h : Steps s t) (hrun : s.run = .running) (hir : s.byteAt s.pc = 167)
    (hend : t.run = .running) : t.fl = 1 ∨ t.fl = 2 ∨ t.fl = 4 := by
  cases h with
  | inert hn => exact absurd hrun hn
  | faults => cases hend
  | completes _ _ hi hc =>
    have hop : _ = Opcode.cmp := Opcode.byte_injective ((holds_opcode hi).symm.trans hir)
    rcases hc.fl_cases with ⟨hne, -⟩ | ⟨-, hfl⟩
    · exact absurd hop hne
    · exact hfl

/-- Only JEQ and JNE read `fl`, and of it only E: with another `fl` the instruction completes alike, up to `fl`. -/
theorem Completes.setFl (h : Completes s i t) {f : Byte}
    (hf : flagE f = flagE s.fl ∨ (i.opcode ≠ .jeq ∧ i.opcode ≠ .jne)) :
    ∃ g, Completes (s.setFl f) i (t.setFl g) := by
  cases h with
  | jeq r =>
    have hE : flagE f = flagE s.fl := hf.resolve_right fun hne => hne.1 rfl
    exact ⟨f, hE ▸ Completes.jeq (s := s.setFl f) r⟩
  | jne r =>
    have hE : flagE f = flagE s.fl := hf.resolve_right fun hne => hne.2 rfl
    exact ⟨f, hE ▸ Completes.jne (s := s.setFl f) r⟩
  | cmp a b => exact ⟨compareFlags (s.x a) (s.x b), Completes.cmp (s := s.setFl f) a b⟩
  | _ => exact ⟨f, by constructor <;> assumption⟩

theorem Steps.setFl (h : Steps s t) {f : Byte}
    (hf : flagE f = flagE s.fl ∨ (s.byteAt s.pc ≠ 85 ∧ s.byteAt s.pc ≠ 86)) :
    ∃ g, Steps (s.setFl f) (t.setFl g) := by
  cases h with
  | inert hrun => exact ⟨f, .inert hrun⟩
  | faults hrun he => exact ⟨f, .faults (s := s.setFl f) hrun (he.congr rfl rfl rfl)⟩
  | completes hrun hpc hi hc =>
    rw [holds_opcode hi] at hf
    obtain ⟨g, hg⟩ := hc.setFl (hf.imp_right fun hne =>
      ⟨fun hop => hne.1 (hop ▸ rfl), fun hop => hne.2 (hop ▸ rfl)⟩)
    exact ⟨g, .completes hrun hpc hi hg⟩

/-! ## Output -/

/-- Only PRN appends to `out`, and no instruction reads it. -/
theorem Completes.out_cases (h : Completes s i t) :
    (t.out = s.out ∧ ∀ o, Completes { s with out := o } i { t with out := o }) ∨
      ∃ r, i = .prn (regByte r) ∧ t.out = s.out ++ [s.x r] ∧
        ∀ o, Completes { s with out := o } i { t with out := o ++ [s.x r] } := by
  cases h with
  | prn r => exact .inr ⟨r, rfl, rfl, fun o => Completes.prn (s := { s with out := o }) r⟩
  | _ => exact .inl ⟨rfl, fun o => by constructor <;> assumption⟩

/-- The same for a step. -/
theorem Steps.out_cases (h : Steps s t) :
    (t.out = s.out ∧ ∀ o, Steps { s with out := o } { t with out := o }) ∨
      ∃ r, s.run = .running ∧ s.byteAt s.pc = 71 ∧ s.byteAt (s.pc + 1) = regByte r ∧ t.out = s.out ++ [s.x r] ∧
        ∀ o, Steps { s with out := o } { t with out := o ++ [s.x r] } := by
  cases h with
  | inert hrun => exact .inl ⟨rfl, fun o => .inert hrun⟩
  | faults hrun he =>
    exact .inl ⟨rfl, fun o => .faults (s := { s with out := o }) hrun (he.congr rfl rfl rfl)⟩
  | completes hrun hpc hi hc =>
    rcases hc.out_cases with ⟨hout, hall⟩ | ⟨r, rfl, hout, hall⟩
    · exact .inl ⟨hout, fun o => .completes hrun hpc hi (hall o)⟩
    · exact .inr ⟨r, hrun, holds_opcode hi, holds_operand hi rfl, hout,
        fun o => .completes hrun hpc hi (hall o)⟩

/-! ## Memory and the stack pointer -/

/-- A step writes memory only at `sp - 1`, by a PUSH of a register or a CALL at an address it could fetch. -/
theorem Steps.mem_cases (h : Steps s t) :
    t.mem = s.mem ∨ (s.run = .running ∧ s.pc ≤ 253 ∧ 1 ≤ s.sp ∧ t.sp = s.sp - 1 ∧
      ∃ v, t.mem = Memory.write s.mem (s.sp - 1) v ∧
        ((s.byteAt s.pc = 69 ∧ ∃ r, s.byteAt (s.pc + 1) = regByte r ∧ v = s.x r) ∨
          (s.byteAt s.pc = 80 ∧ v = returnAddress s))) := by
  cases h with
  | inert | faults => exact .inl rfl
  | completes hrun hpc hi hc =>
    rcases hc.mem_cases with hm | ⟨h1, -, hsp, v, hm, ⟨r, rfl, hv⟩ | ⟨hop, hv⟩⟩
    · exact .inl hm
    · exact .inr ⟨hrun, hpc, h1, hsp, v, hm, .inl ⟨holds_opcode hi, r, holds_operand hi rfl, hv⟩⟩
    · exact .inr ⟨hrun, hpc, h1, hsp, v, hm, .inr ⟨by rw [holds_opcode hi, hop]; rfl, hv⟩⟩

/-- The return address of a CALL that was fetched fits a byte (R32). -/
theorem returnAddress_toNat (hpc : s.pc ≤ 253) : (returnAddress s).toNat = s.pc + 2 := by
  rw [returnAddress, wrap_toNat]
  omega

end

/-- Settles O37: the flag lemmas of a step, one per clause. -/
theorem flagsAreWrittenByCmpAndReadOnlyAsEqual : Obligations.FlagsAreWrittenByCmpAndReadOnlyAsEqual := by
  refine ⟨fun s t hstep hne => ?writer, fun s t hrun hir hstep hend => ?value, fun s t f hstep hf => ?readers,
    fun a b s t hadd => ?aluAdd⟩
  case writer => exact (steps_of_step hstep).fl_cases.resolve_left hne
  case value => exact (steps_of_step hstep).fl_of_cmp hrun hir hend
  case readers =>
    obtain ⟨g, hg⟩ := (steps_of_step hstep).setFl hf
    exact ⟨g, hg.step_eq⟩
  case aluAdd => cases hadd; rfl

/-- Settles O39: a step appends nothing, or is a PRN and appends its register; either way it commutes with
another output stream. -/
theorem outputIsAppendOnlyAndUnobservable : Obligations.OutputIsAppendOnlyAndUnobservable := by
  intro s t o hstep
  rcases (steps_of_step hstep).out_cases with ⟨hout, hall⟩ | ⟨r, hrun, hir, hopa, hout, hall⟩
  · refine ⟨[], ?_, ?_, .inl rfl⟩
    · rw [hout, List.append_nil]
    · rw [List.append_nil]; exact (hall o).step_eq
  · exact ⟨[s.x r], hout, (hall o).step_eq, .inr ⟨hrun, hir, r, hopa, rfl⟩⟩

/-- Settles O40: the one cell a step can write is the one that differs. -/
theorem onlyPushAndCallWriteMemory : Obligations.OnlyPushAndCallWriteMemory := by
  intro s t a hstep hne
  rcases (steps_of_step hstep).mem_cases with hm | ⟨hrun, hpc, h1, hsp, v, hm, hwriter⟩
  · exact absurd (byteAt_congr hm a) hne
  · have hread (b : Nat) : t.byteAt b = if b = s.sp - 1 then v else s.byteAt b := by
      rw [State.byteAt, hm, Memory.read_write]; rfl
    have ha : a = s.sp - 1 := by
      by_contra hother
      exact hne ((hread a).trans (if_neg hother))
    have hval : t.byteAt a = v := (hread a).trans (if_pos ha)
    refine ⟨hrun, by rw [pushAddress]; omega, by rw [hsp, ha], ?_⟩
    rcases hwriter with ⟨hir, r, hopa, hv⟩ | ⟨hir, hv⟩
    · exact .inl ⟨hir, r, hopa, hval.trans hv⟩
    · exact .inr ⟨hir, by rw [hval, hv, returnAddress_toNat hpc]⟩

/-- Settles O41: only a completing instruction moves `sp`, and its row is the byte at `pc`. -/
theorem stackPointerMovesByOneAndOnlyByStackInstructions :
    Obligations.StackPointerMovesByOneAndOnlyByStackInstructions := by
  intro s t hstep hne
  cases steps_of_step hstep with
  | inert | faults => exact absurd rfl hne
  | completes _ _ hi hc =>
    rw [holds_opcode hi]
    rcases hc.sp_cases with hsp | ⟨hsp, hop⟩ | ⟨hsp, -, hop⟩
    · exact absurd hsp hne
    · exact .inl ⟨hsp, hop.imp (congrArg Opcode.byte) (congrArg Opcode.byte)⟩
    · exact .inr ⟨hsp, hop.imp (congrArg Opcode.byte) (congrArg Opcode.byte)⟩

end Sys2Proof.Machine

/-! PROOF. R28, R43 and R131: reset, which images load, and the machine a load starts. -/

namespace Sys2Proof.Machine

theorem loadBytes_cons {a : Nat} (h : a < 256) (v : Byte) (rest : List Byte) (s : State) :
    loadBytes a (v :: rest) s = loadBytes (a + 1) rest (s.setByte a v) := by
  rw [loadBytes, memWrite_of_lt h]; rfl

/-- An image that fits from `a` on is written. -/
theorem loadBytes_of_fits {image : List Byte} {a : Nat} (h : a + image.length ≤ 256) (s : State) :
    ∃ t, loadBytes a image s = .ok t := by
  induction image generalizing a s with
  | nil => exact ⟨s, rfl⟩
  | cons v rest ih =>
    rw [List.length_cons] at h
    rw [loadBytes_cons (by omega)]
    exact ih (by omega) _

/-- An image that does not fit fails at the write to 256 (D18). -/
theorem loadBytes_of_overlong {image : List Byte} {a : Nat} (ha : a ≤ 256) (h : 256 < a + image.length)
    (s : State) : loadBytes a image s = .error (.outOfBounds 256) := by
  induction image generalizing a s with
  | nil => rw [List.length_nil] at h; omega
  | cons v rest ih =>
    rcases Nat.lt_or_eq_of_le ha with hlt | rfl
    · rw [List.length_cons] at h
      rw [loadBytes_cons hlt]
      exact ih (by omega) (by omega) _
    · rw [loadBytes, memWrite_out (.inr (by decide))]; rfl

theorem load_of_loading {image : List Byte} {s t : State} (hrun : s.run = .loading)
    (h : loadBytes 0 image s = .ok t) : load image s = .next (t.setRun .running) := by
  simp only [load, hrun, h]

theorem State.reset_x (r : RegIndex) : State.reset.x r = 0 := by
  simp [State.reset, State.x]

/-- Settles O1: the values the reset state is defined with, read back. -/
theorem resetLeavesTheSpecValues : Obligations.ResetLeavesTheSpecValues :=
  ⟨State.reset_x, rfl, rfl, rfl, State.reset_byteAt, rfl, rfl⟩

/-- Settles O3: an image over 256 bytes runs into the write at 256; outside Loading the loader writes nothing. -/
theorem overlongOrLateLoadIsRefused : Obligations.OverlongOrLateLoadIsRefused := by
  refine ⟨fun image s hrun hlen => ?_, fun image s hrun => load_of_not_loading hrun image⟩
  have herr := loadBytes_of_overlong (image := image) (Nat.zero_le _) (by omega) s
  simp only [load, hrun, herr]

/-- Settles O2: an image that fits is written, and nothing but memory and `run` differs from reset. -/
theorem loadedProgramStartsFromTheResetState : Obligations.LoadedProgramStartsFromTheResetState := by
  refine ⟨rfl, step_of_not_running nofun, fun image hlen => ?_⟩
  obtain ⟨u, hu⟩ := loadBytes_of_fits (image := image) (a := 0) (by omega) State.reset
  have hload : load image State.reset = .next (u.setRun .running) := load_of_loading rfl hu
  have hframe : u = { State.reset with mem := u.mem } := loadBytes_frame hu
  have hpc : (u.setRun .running).pc = 0 := congrArg State.pc hframe
  have hbytes (a : Nat) : (u.setRun .running).byteAt a = image.getD a 0 := load_byteAt hload a
  refine ⟨_, hload, rfl, hpc, congrArg State.sp hframe, congrArg State.out hframe,
    fun r => (load_x hload r).trans (State.reset_x r), congrArg State.fl hframe, hbytes, ?_⟩
  rw [fetch_of_le (by omega), State.bytesAtPc, hpc, hbytes, hbytes, hbytes]

end Sys2Proof.Machine

/-! PROOF. R31, R32, R39: the bounds of memory accesses, read after write, and the canonical form. -/

namespace Sys2Proof.Machine

/-- Settles O50: the two bounds checks, and what memory reads after a write. -/
theorem memoryReadsTheMostRecentWrite : Obligations.MemoryReadsTheMostRecentWrite := by
  refine ⟨fun a s => ?bounds, fun a v s hout => memWrite_out (by omega) v s, fun a v s ha => ?readBack⟩
  case bounds =>
    rcases memRead_cases a s with ⟨h, hr⟩ | ⟨h, hr⟩
    · rw [hr, if_pos (by omega)]
    · rw [hr, if_neg (by omega)]
  case readBack =>
    have hlt : a < 256 := by omega
    refine ⟨_, memWrite_of_lt hlt v s, rfl, ?_, fun b hb => ?_⟩
    · rw [memRead_of_lt hlt, State.setByte_byteAt_same]
    · simp only [memRead, State.setByte_byteAt_other s hb]

/-- An address without an entry reads zero (R44). -/
theorem Memory.read_of_notMem {m : Memory} {a : Nat} (h : ∀ c ∈ m, c.1 ≠ a) : Memory.read m a = 0 := by
  induction m with
  | nil => rfl
  | cons c m ih =>
    rw [Memory.read_cons, if_neg (h c List.mem_cons_self)]
    exact ih fun d hd => h d (List.mem_cons_of_mem _ hd)

/-- In a list of rising addresses, reading the address of an entry gives that entry. -/
theorem Memory.read_of_mem {m : Memory} (hm : m.Pairwise (fun c d => c.1 < d.1)) {c : Host.Cell} (hc : c ∈ m) :
    Memory.read m c.1 = c.2 := by
  induction m with
  | nil => cases hc
  | cons d m ih =>
    obtain ⟨hd, hm⟩ := List.pairwise_cons.1 hm
    rw [Memory.read_cons]
    rcases List.mem_cons.1 hc with rfl | hc
    · exact if_pos rfl
    · rw [if_neg (Nat.ne_of_lt (hd c hc)), ih hm hc]

/-- The entries of a canonical memory are the cells that do not read zero. -/
theorem Memory.wf.mem_iff {m : Memory} (hm : Memory.wf m) (c : Host.Cell) :
    c ∈ m ↔ Memory.read m c.1 = c.2 ∧ c.2 ≠ 0 := by
  refine ⟨fun hc => ⟨Memory.read_of_mem hm.1 hc, (hm.2 c hc).2⟩, fun ⟨hread, hne⟩ => ?_⟩
  by_contra hc
  have habsent : ∀ d ∈ m, d.1 ≠ c.1 := fun d hd heq =>
    hc (Prod.ext heq ((heq ▸ Memory.read_of_mem hm.1 hd).symm.trans hread) ▸ hd)
  exact hne (hread.symm.trans (Memory.read_of_notMem habsent))

/-- Canonical memories that read alike have the same entries, in the same order. -/
theorem Memory.wf.ext {m n : Memory} (hm : Memory.wf m) (hn : Memory.wf n)
    (h : ∀ a, Memory.read m a = Memory.read n a) : m = n := by
  have hsame (c : Host.Cell) : c ∈ m ↔ c ∈ n := by rw [hm.mem_iff, hn.mem_iff, h]
  have : Std.Irrefl fun c d : Host.Cell => c.1 < d.1 := ⟨fun c => Nat.lt_irrefl c.1⟩
  have : Std.Antisymm fun c d : Host.Cell => c.1 < d.1 :=
    ⟨fun c d h1 h2 => absurd h2 (Nat.lt_asymm h1)⟩
  exact hm.1.eq_of_mem_iff hn.1 hsame

/-- Settles O51: the third clause from the first two, since both sides are canonical and read alike. -/
theorem canonicalMemoriesThatReadAlikeAreEqual : Obligations.CanonicalMemoriesThatReadAlikeAreEqual := by
  refine ⟨fun m n hm hn h => hm.ext hn h, fun m a v hm ha => Memory.write_wf hm ha v,
    fun m a v w hm ha => ?overwrite⟩
  case overwrite =>
    have honce : Memory.wf (Memory.write m a v) := Memory.write_wf hm ha v
    refine (Memory.write_wf honce ha w).ext (Memory.write_wf hm ha w) fun b => ?_
    simp only [Memory.read_write]
    split <;> rfl

end Sys2Proof.Machine

/-! PROOF. R80 to R105 and R75: the ALU's contract, and the instructions' cycles, results and frames. -/

namespace Sys2Proof.Machine

/-! ## The cycle of an instruction of one byte -/

/-- A row without operand bytes has the cycle of R70 with no check of R72, whatever the bytes after the opcode. -/
theorem cycleOf_of_decode_ok {op : Opcode} {i : Instr} (hop : ∀ f, decodeOperands f op = .ok i) :
    CycleOf op.byte.toNat false false fun _ _ => i := by
  refine fun s hrun hir => ⟨fun hlo hhi => step_of_fetch_error hrun (fetch_of_top hlo hhi), fun hpc => ?_⟩
  simp only [Bool.false_eq_true, false_and, if_false]
  exact step_of_decode_ok hrun hpc ((decode_bytesAtPc hir).trans (hop _))

/-! ## More frames -/

section
variable (s : State)

theorem setFl_frame (v : Byte) : Frame { fl := true } s (s.setFl v) where
  regs _ _ := rfl
  bytes _ _ := rfl
  sp _ := rfl
  fl h := nomatch h
  run _ := rfl
  out _ := rfl

theorem setRun_frame (r : Run) : Frame { run := true } s (s.setRun r) where
  regs _ _ := rfl
  bytes _ _ := rfl
  sp _ := rfl
  fl _ := rfl
  run h := nomatch h
  out _ := rfl

theorem setSp_setX_frame (n : Nat) (r : RegIndex) (v : Byte) :
    Frame { reg := some r, sp := true } s ((s.setSp n).setX r v) where
  regs q hq := State.setX_x_other (s.setSp n) r q v fun hqr => hq (congrArg some hqr.symm)
  bytes _ _ := rfl
  sp h := nomatch h
  fl _ := rfl
  run _ := rfl
  out _ := rfl

/-! ## Flags by their bits -/

theorem flagE_compareFlags (a b : Byte) : flagE (compareFlags a b) = true ↔ a = b := by
  rcases compareFlags_cases a b with ⟨rfl, h⟩ | ⟨hlt, h⟩ | ⟨hlt, h⟩
  · exact iff_of_true (h ▸ rfl) rfl
  · exact iff_of_false (by rw [h]; decide) (by rintro rfl; exact Nat.lt_irrefl _ hlt)
  · exact iff_of_false (by rw [h]; decide) (by rintro rfl; exact Nat.lt_irrefl _ hlt)

theorem flagG_compareFlags (a b : Byte) : flagG (compareFlags a b) = true ↔ b.toNat < a.toNat := by
  rcases compareFlags_cases a b with ⟨rfl, h⟩ | ⟨hlt, h⟩ | ⟨hlt, h⟩
  · exact iff_of_false (by rw [h]; decide) (Nat.lt_irrefl _)
  · exact iff_of_true (h ▸ rfl) hlt
  · exact iff_of_false (by rw [h]; decide) (Nat.lt_asymm hlt)

theorem flagL_compareFlags (a b : Byte) : flagL (compareFlags a b) = true ↔ a.toNat < b.toNat := by
  rcases compareFlags_cases a b with ⟨rfl, h⟩ | ⟨hlt, h⟩ | ⟨hlt, h⟩
  · exact iff_of_false (by rw [h]; decide) (Nat.lt_irrefl _)
  · exact iff_of_false (by rw [h]; decide) (Nat.lt_asymm hlt)
  · exact iff_of_true (h ▸ rfl) hlt

theorem compareFlags_lt (a b : Byte) : (compareFlags a b).toNat < 8 := by
  rcases compareFlags_cases a b with ⟨-, h⟩ | ⟨-, h⟩ | ⟨-, h⟩
  all_goals rw [h]; decide

end

/-- Settles O23: ADD is one register write, CMP one write of `fl`, whose bits are the three comparisons. -/
theorem aluAddsComparesAndRejectsTheRest : Obligations.AluAddsComparesAndRejectsTheRest := by
  refine fun a b s => ⟨?add, ?cmp, fun op h1 h2 => alu_other h1 h2 a b s⟩
  case add =>
    refine ⟨_, alu_add a b s, ?_, rfl, setX_frame s a _⟩
    rw [aluAdd, State.setX_x_same, wrap_toNat]
  case cmp =>
    exact ⟨_, alu_cmp a b s, flagE_compareFlags _ _, flagG_compareFlags _ _, flagL_compareFlags _ _,
      compareFlags_lt _ _, rfl, setFl_frame s _⟩

/-! ## Multiplication -/

/-- Settles O27: MUL's row has two register fields, and its meaning is one register write. -/
theorem mulKeepsTheLowByteOfTheProduct : Obligations.MulKeepsTheLowByteOfTheProduct := by
  refine ⟨cycleOf_of_decodeRegReg (op := .mul) fun _ => rfl, fun a b s => ?_⟩
  refine ⟨_, execMul_regByte s a b, ?_, rfl, (setX_frame s a _).setPc _⟩
  rw [State.setPc_x, State.setX_x_same, wrap_toNat]

/-- Settles O28: DOUBLE's row has one register field and keeps byte 2 unread; its meaning is one register
write. -/
theorem doubleDoublesAndAdvancesByThree : Obligations.DoubleDoublesAndAdvancesByThree := by
  refine ⟨cycleOf_of_decodeReg (op := .double) fun _ => rfl, fun r pad s => ?_⟩
  refine ⟨_, execDouble_regByte s r, ?_, rfl, (setX_frame s r _).setPc _⟩
  rw [State.setPc_x, State.setX_x_same, wrap_toNat]

/-! ## The stack instructions -/

section
variable {s : State} {i : Instr}

/-- An exception of execute, where its address computes to the one a statement names. -/
theorem exec_of_raises_eq {e e' : Exception} (h : Raises s.sp i e) (he : e = e') :
    exec i s = .next (takeException e' s) := he ▸ h.exec_eq

theorem pushAddress_eq (h : 1 ≤ s.sp) : ((s.sp - 1 : Nat) : Int) = pushAddress s := by
  rw [pushAddress]; omega

end

/-- Settles O29: the completing PUSH is a push and the advance of `pc`; at `sp = 0` the push fails at -1. -/
theorem pushStoresBelowTheStackPointer : Obligations.PushStoresBelowTheStackPointer := by
  refine ⟨cycleOf_of_decodeReg (op := .push) fun _ => rfl, fun r s h1 h2 => ?stored, fun r s h0 => ?bottom⟩
  case stored =>
    rw [pushAddress_toNat]
    exact ⟨_, (Completes.push r h1 h2).exec_eq, pushAddress_eq h1, State.setByte_byteAt_same s _ _, rfl, rfl,
      (setByte_setSp_frame s _ _ _).setPc _⟩
  case bottom => exact exec_of_raises_eq (.push r (.inl h0)) (by rw [h0]; rfl)

/-- Settles O30: the completing POP is a pop into the register; at `sp = 256` the read fails there. -/
theorem popLoadsFromTheStackPointer : Obligations.PopLoadsFromTheStackPointer := by
  refine ⟨cycleOf_of_decodeReg (op := .pop) fun _ => rfl, fun r s hsp => ?loaded, fun r s htop => ?top⟩
  case loaded =>
    exact ⟨_, (Completes.pop r hsp).exec_eq, State.setX_x_same _ r _, rfl, rfl,
      (setSp_setX_frame s _ r _).setPc _⟩
  case top => exact exec_of_raises_eq (.pop r (by omega)) (by rw [htop]; rfl)

/-! ## Control transfer -/

/-- Settles O32: JEQ is one write of `pc`, whose value the flag E selects. -/
theorem jeqBranchesWhenEqualIsSet : Obligations.JeqBranchesWhenEqualIsSet := by
  refine ⟨cycleOf_of_decodeReg (op := .jeq) fun _ => rfl, fun r s => ?_⟩
  refine ⟨_, execJeq_regByte s r, fun hset => if_pos hset, fun hclear => if_neg ?_, (Frame.refl s).setPc _⟩
  rw [flagE, hclear]; nofun

/-- Settles O33: as JEQ, with the two targets exchanged. -/
theorem jneBranchesWhenEqualIsClear : Obligations.JneBranchesWhenEqualIsClear := by
  refine ⟨cycleOf_of_decodeReg (op := .jne) fun _ => rfl, fun r s => ?_⟩
  refine ⟨_, execJne_regByte s r, fun hclear => if_neg ?_, fun hset => if_pos hset, (Frame.refl s).setPc _⟩
  rw [flagE, hclear]; nofun

/-- Settles O34: the completing CALL is a push of the return address and a jump. -/
theorem callPushesTheReturnAddress : Obligations.CallPushesTheReturnAddress := by
  refine ⟨cycleOf_of_decodeReg (op := .call) fun _ => rfl, fun r s h1 h2 => ?stored, fun r s h0 => ?bottom⟩
  case stored =>
    rw [pushAddress_toNat]
    refine ⟨_, (Completes.call r h1 h2).exec_eq, pushAddress_eq h1, rfl, fun hpc => ?_, rfl,
      (setByte_setSp_frame s _ _ _).setPc _⟩
    rw [State.setPc_byteAt, State.setSp_byteAt, State.setByte_byteAt_same, returnAddress_toNat hpc]
  case bottom => exact exec_of_raises_eq (.call r (.inl h0)) (by rw [h0]; rfl)

/-- Settles O35: the completing RET is a pop into `pc`. -/
theorem retGoesToTheByteOnTop : Obligations.RetGoesToTheByteOnTop := by
  refine ⟨cycleOf_of_decode_ok (op := .ret) fun _ => rfl, fun s hsp => ?popped, fun s htop => ?top⟩
  case popped => exact ⟨_, (Completes.ret hsp).exec_eq, rfl, rfl, (setSp_frame s _).setPc _⟩
  case top => exact exec_of_raises_eq (.ret (by omega)) (by rw [htop]; rfl)

/-- Settles O36: HLT is one write of `run`. -/
theorem hltHaltsAndKeepsThePc : Obligations.HltHaltsAndKeepsThePc :=
  ⟨cycleOf_of_decode_ok (op := .hlt) fun _ => rfl, fun s => ⟨_, execHlt_eq s, rfl, rfl, setRun_frame s _⟩⟩

end Sys2Proof.Machine

/-! PROOF. R41, R96, R97, R102, R103, R106: two and three instructions in a row. -/

namespace Sys2Proof.Machine

/-- The state an instruction that completes ends in is the only one it can end in. -/
theorem Completes.eq_of_exec {s t u : State} {i : Instr} (hc : Completes s i t) (h : exec i s = .next u) : u = t :=
  Host.Outcome.next.inj (h.symm.trans hc.exec_eq)

/-- A POP where a PUSH of `v` left the stack loads `v` and moves `sp` back. -/
theorem completes_pop_after_push {s : State} (h1 : 1 ≤ s.sp) (h2 : s.sp ≤ 256) (v : Byte) (n : Nat) (b : RegIndex) :
    Completes (((s.setByte (s.sp - 1) v).setSp (s.sp - 1)).setPc n) (.pop (regByte b))
      ((((s.setByte (s.sp - 1) v).setSp s.sp).setX b v).setPc (n + 2)) := by
  have hpop := Completes.pop (s := ((s.setByte (s.sp - 1) v).setSp (s.sp - 1)).setPc n) b
    (show s.sp - 1 ≤ 255 by omega)
  have htop : (((s.setByte (s.sp - 1) v).setSp (s.sp - 1)).setPc n).byteAt (s.sp - 1) = v :=
    State.setByte_byteAt_same s _ v
  rw [State.setPc_sp, State.setSp_sp, htop, Nat.sub_add_cancel h1] at hpop
  exact hpop

/-- The frame of the two: the register and the cell, `sp` being back. -/
theorem setByte_setX_frame (s : State) (a : Nat) (v : Byte) (b : RegIndex) (w : Byte) :
    Frame { reg := some b, cell := some a } s (((s.setByte a v).setSp s.sp).setX b w) where
  regs q hq := State.setX_x_other _ b q w fun hqb => hq (congrArg some hqb.symm)
  bytes _ hc := State.setByte_byteAt_other s (fun hca => hc (congrArg some hca.symm)) v
  sp _ := rfl
  fl _ := rfl
  run _ := rfl
  out _ := rfl

/-- Settles O46: the POP runs in the state the PUSH left, where the cell at `sp` holds the pushed register. -/
theorem pushThenPopCopiesTheRegister : Obligations.PushThenPopCopiesTheRegister := by
  intro a b s h1 h2
  have hframe := (setByte_setX_frame s (s.sp - 1) (s.x a) b (s.x a)).setPc (s.pc + 2 + 2)
  have hcopy : (((s.setByte (s.sp - 1) (s.x a)).setSp s.sp).setX b (s.x a)).x b = s.x a :=
    State.setX_x_same _ b _
  refine ⟨_, _, (Completes.push a h1 h2).exec_eq, (completes_pop_after_push h1 h2 _ _ b).exec_eq, hcopy, rfl, rfl,
    fun hab r => ?same, hframe⟩
  case same =>
    by_cases hrb : r = b
    · rw [hrb]
      exact hcopy.trans (congrArg s.x hab)
    · exact hframe.regs r fun h => hrb (Option.some.inj h).symm

/-- Settles O47: the byte at the CALL's `sp` is its return address, and RET goes there. -/
theorem returnResumesAfterTheCall : Obligations.ReturnResumesAfterTheCall := by
  intro r s t u h1 h2 hpc hcall hsp hbyte
  obtain rfl := (Completes.call r h1 h2).eq_of_exec hcall
  replace hsp : u.sp = s.sp - 1 := hsp
  replace hbyte : u.byteAt u.sp = returnAddress s := hbyte.trans (State.setByte_byteAt_same s _ _)
  refine ⟨_, (Completes.ret (by omega)).exec_eq, ?pc, ?sp⟩
  case pc => rw [State.setPc_pc, hbyte, returnAddress_toNat hpc]
  case sp => rw [State.setPc_sp, State.setSp_sp, hsp, Nat.sub_add_cancel h1]

/-- Where JEQ and JNE to one register go: apart, by E. -/
theorem jeq_jne_pc {r : RegIndex} {s t u : State} (hjeq : exec (.jeq (regByte r)) s = .next t)
    (hjne : exec (.jne (regByte r)) s = .next u) :
    if flagE s.fl then t.pc = (s.x r).toNat ∧ u.pc = s.pc + 2 else t.pc = s.pc + 2 ∧ u.pc = (s.x r).toNat := by
  obtain rfl := (Completes.jeq r).eq_of_exec hjeq
  obtain rfl := (Completes.jne r).eq_of_exec hjne
  cases flagE s.fl
  · exact ⟨rfl, rfl⟩
  · exact ⟨rfl, rfl⟩

/-- Settles O48: E tells which of the two is taken, and a CMP sets it on equality. -/
theorem exactlyOneOfJeqAndJneIsTaken : Obligations.ExactlyOneOfJeqAndJneIsTaken := by
  refine ⟨fun r s t u hjeq hjne => ?one, fun a b r s t u v hcmp hjeq hjne => ?afterCmp⟩
  case one =>
    have h := jeq_jne_pc hjeq hjne
    split at h
    · exact .inl h
    · exact .inr h
  case afterCmp =>
    obtain rfl := (Completes.cmp a b).eq_of_exec hcmp
    have h := jeq_jne_pc hjeq hjne
    simp only [State.setPc_fl, aluCmp_fl, flagE_compareFlags] at h
    exact h

/-- A fetch at `pc` reads a given byte of memory at its place. -/
theorem fetch_getElem? {t : State} {k : Nat} (hpc : t.pc ≤ 253) (hk : k < 3) :
    ∃ f, fetch t = .ok f ∧ [f.ir, f.opa, f.opb][k]? = some (t.byteAt (t.pc + k)) := by
  refine ⟨_, fetch_of_le hpc, ?_⟩
  rw [List.getElem?_eq_getElem hk, bytesAtPc_getElem t hk]

/-- Settles O49: the next fetch reads the written cell. -/
theorem storedByteIsFetchedByTheNextCycle : Obligations.StoredByteIsFetchedByTheNextCycle := by
  intro s t r k h1 h2 hpc hk hplace
  have hcell : t.pc + k = s.sp - 1 := by rw [pushAddress] at hplace; omega
  obtain ⟨f, hfetch, hbyte⟩ := fetch_getElem? hpc hk
  rw [hcell] at hbyte
  refine ⟨fun hpush => ⟨f, hfetch, hbyte.trans (congrArg some ?_)⟩,
    fun hcall => ⟨f, hfetch, hbyte.trans (congrArg some ?_)⟩⟩
  · rw [(Completes.push r h1 h2).eq_of_exec hpush]
    exact State.setByte_byteAt_same s _ _
  · rw [(Completes.call r h1 h2).eq_of_exec hcall]
    exact State.setByte_byteAt_same s _ _

end Sys2Proof.Machine
